-- ==== Sys2Proof/Word.lean ====
section
/-! DEFINITION. The word types of chippy8 CORE: bytes, 16-bit words, register and key numbers, time stamps
(spec/00_scope.md R5, R7; spec/10_state.md R30). -/

namespace Sys2Proof

/-- A byte: a general register, a timer, a memory cell, the immediate `kk` (R5 `REG_W`, R7). -/
abbrev Byte := BitVec 8

/-- A 16-bit word that holds an address or is compared with one: `pc`, `I`, a call-stack entry, `fault_addr` (R5). -/
abbrev Addr := BitVec 16

/-- A fetched instruction word (R91). -/
abbrev Opcode := BitVec 16

/-- The number of a general register, `V0` to `VF` (R31). -/
abbrev Reg := Fin 16

/-- A key id, 0x0 to 0xF (R45). -/
abbrev KeyId := Fin 16

/-- A time stamp of the timed refinement, in units of one sixtieth of a nanosecond (R238; log entry 8). -/
abbrev Time := Nat

/-- `VF`, register 15: a general register and the only flag (R32). -/
abbrev vf : Reg := 15

end Sys2Proof
end

