-- ==== Sys2Proof/Syntax.lean ====
section
/-! DEFINITION. The abstract syntax: one constructor for each of the 34 rows of spec/opcode_table.json, in the table's
order (spec/30_encoding.md R92, R93, R103). A register selector is a register number, `nnn` and `kk` are the bits the
instruction carries, and `n` of `Dxyn` is a count; every value of every field is legal (R94). -/

namespace Sys2Proof

/-- The 34 instructions (R103). -/
inductive Instr where
  /-- `00E0` CLS: clear display (R191). -/
  | cls
  /-- `00EE` RET: return from subroutine (R141). -/
  | ret
  /-- `1nnn` JP nnn: jump (R142). -/
  | jp (nnn : BitVec 12)
  /-- `2nnn` CALL nnn: call subroutine (R143). -/
  | call (nnn : BitVec 12)
  /-- `3xkk` SE Vx, kk: skip if equal to immediate (R151). -/
  | seImm (x : Reg) (kk : Byte)
  /-- `4xkk` SNE Vx, kk: skip if not equal to immediate (R152). -/
  | sneImm (x : Reg) (kk : Byte)
  /-- `5xy0` SE Vx, Vy: skip if registers equal (R153). -/
  | seReg (x y : Reg)
  /-- `6xkk` LD Vx, kk: load immediate (R161). -/
  | ldImm (x : Reg) (kk : Byte)
  /-- `7xkk` ADD Vx, kk: add immediate (R162). -/
  | addImm (x : Reg) (kk : Byte)
  /-- `8xy0` LD Vx, Vy: copy (R163). -/
  | ldReg (x y : Reg)
  /-- `8xy1` OR Vx, Vy: bitwise or (R164). -/
  | orReg (x y : Reg)
  /-- `8xy2` AND Vx, Vy: bitwise and (R165). -/
  | andReg (x y : Reg)
  /-- `8xy3` XOR Vx, Vy: bitwise exclusive or (R166). -/
  | xorReg (x y : Reg)
  /-- `8xy4` ADD Vx, Vy: add with carry flag (R167). -/
  | addReg (x y : Reg)
  /-- `8xy5` SUB Vx, Vy: subtract with not-borrow flag (R168). -/
  | subReg (x y : Reg)
  /-- `8xy6` SHR Vx, Vy: shift right by one (R169). -/
  | shr (x y : Reg)
  /-- `8xy7` SUBN Vx, Vy: reverse subtract with not-borrow flag (R170). -/
  | subnReg (x y : Reg)
  /-- `8xyE` SHL Vx, Vy: shift left by one (R171). -/
  | shl (x y : Reg)
  /-- `9xy0` SNE Vx, Vy: skip if registers differ (R154). -/
  | sneReg (x y : Reg)
  /-- `Annn` LD I, nnn: load index (R181). -/
  | ldI (nnn : BitVec 12)
  /-- `Bnnn` JP V0, nnn: jump with offset (R144). -/
  | jpV0 (nnn : BitVec 12)
  /-- `Cxkk` RND Vx, kk: masked random byte (R172). -/
  | rnd (x : Reg) (kk : Byte)
  /-- `Dxyn` DRW Vx, Vy, n: draw sprite (R192). -/
  | drw (x y : Reg) (n : Fin 16)
  /-- `Ex9E` SKP Vx: skip if key pressed (R201). -/
  | skp (x : Reg)
  /-- `ExA1` SKNP Vx: skip if key not pressed (R202). -/
  | sknp (x : Reg)
  /-- `Fx07` LD Vx, DT: read delay timer (R204). -/
  | ldVxDt (x : Reg)
  /-- `Fx0A` LD Vx, K: wait for a key (R203). -/
  | ldVxKey (x : Reg)
  /-- `Fx15` LD DT, Vx: set delay timer (R205). -/
  | ldDtVx (x : Reg)
  /-- `Fx18` LD ST, Vx: set sound timer (R206). -/
  | ldStVx (x : Reg)
  /-- `Fx1E` ADD I, Vx: add register to index (R182). -/
  | addI (x : Reg)
  /-- `Fx29` LD F, Vx: address of a font glyph (R183). -/
  | ldFont (x : Reg)
  /-- `Fx33` LD B, Vx: store binary-coded decimal (R184). -/
  | ldBcd (x : Reg)
  /-- `Fx55` LD [I], Vx: store registers V0 to Vx (R186). -/
  | storeRegs (x : Reg)
  /-- `Fx65` LD Vx, [I]: load registers V0 to Vx (R187). -/
  | loadRegs (x : Reg)
  deriving DecidableEq, Repr

end Sys2Proof
end

