-- ==== Sys2Proof/Decode.lean ====
section
/-! DEFINITION. The decoder, total on every word and every byte list and rejecting by name (spec/30_encoding.md R90 to R99),
and after it the encoder (R103, R106). -/

namespace Sys2Proof

/-- Why a byte list holds no instruction at its front. The six families are those in which R95 has an "illegal" branch. -/
inductive Reject where
  /-- Fewer than two bytes (R90: every instruction is exactly two). -/
  | tooShort
  /-- Leading nibble 0 and neither `00E0` nor `00EE` (R96). -/
  | family0
  /-- Leading nibble 5 and a trailing nibble that is not 0 (R97). -/
  | family5
  /-- Leading nibble 8 and a sub-opcode 8 to D or F (R95, R98). -/
  | family8
  /-- Leading nibble 9 and a trailing nibble that is not 0 (R97). -/
  | family9
  /-- Leading nibble E and a low byte that is neither 9E nor A1 (R98). -/
  | familyE
  /-- Leading nibble F and a low byte that is none of the nine sub-opcodes (R98). -/
  | familyF
  deriving DecidableEq, Repr

/-! ### Fields (R91, R92) -/

/-- `n3 = op[15:12]`, the leading nibble. -/
def fieldN3 (op : Opcode) : BitVec 4 := op.extractLsb' 12 4

/-- `x = op[11:8]`, the first register selector. -/
def fieldX (op : Opcode) : Reg := (op.extractLsb' 8 4).toFin

/-- `y = op[7:4]`, the second register selector. -/
def fieldY (op : Opcode) : Reg := (op.extractLsb' 4 4).toFin

/-- `n0 = op[3:0]`, the trailing nibble: the sub-opcode of family 8. -/
def fieldN0 (op : Opcode) : BitVec 4 := op.extractLsb' 0 4

/-- `n = op[3:0]` read as the sprite height of `Dxyn`. -/
def fieldN (op : Opcode) : Fin 16 := (op.extractLsb' 0 4).toFin

/-- `kk = op[7:0]`: an immediate byte, or the sub-opcode of families E and F. -/
def fieldKk (op : Opcode) : Byte := op.extractLsb' 0 8

/-- `nnn = op[11:0]`, the 12-bit address. -/
def fieldNnn (op : Opcode) : BitVec 12 := op.extractLsb' 0 12

/-! ### Decoding (R95) -/

/-- Family 0: the whole word must match (R96). -/
def decodeFamily0 (op : Opcode) : Except Reject Instr :=
  if op = 0x00E0#16 then .ok .cls
  else if op = 0x00EE#16 then .ok .ret
  else .error .family0

/-- Family 8: the trailing nibble is the sub-opcode (R98). -/
def decodeFamily8 (x y : Reg) (n0 : BitVec 4) : Except Reject Instr :=
  match n0 with
  | 0x0#4 => .ok (.ldReg x y)
  | 0x1#4 => .ok (.orReg x y)
  | 0x2#4 => .ok (.andReg x y)
  | 0x3#4 => .ok (.xorReg x y)
  | 0x4#4 => .ok (.addReg x y)
  | 0x5#4 => .ok (.subReg x y)
  | 0x6#4 => .ok (.shr x y)
  | 0x7#4 => .ok (.subnReg x y)
  | 0xE#4 => .ok (.shl x y)
  | _ => .error .family8

/-- Family E: the whole low byte is the sub-opcode (R98). -/
def decodeFamilyE (x : Reg) (kk : Byte) : Except Reject Instr :=
  match kk with
  | 0x9E#8 => .ok (.skp x)
  | 0xA1#8 => .ok (.sknp x)
  | _ => .error .familyE

/-- Family F: the whole low byte is the sub-opcode (R98). -/
def decodeFamilyF (x : Reg) (kk : Byte) : Except Reject Instr :=
  match kk with
  | 0x07#8 => .ok (.ldVxDt x)
  | 0x0A#8 => .ok (.ldVxKey x)
  | 0x15#8 => .ok (.ldDtVx x)
  | 0x18#8 => .ok (.ldStVx x)
  | 0x1E#8 => .ok (.addI x)
  | 0x29#8 => .ok (.ldFont x)
  | 0x33#8 => .ok (.ldBcd x)
  | 0x55#8 => .ok (.storeRegs x)
  | 0x65#8 => .ok (.loadRegs x)
  | _ => .error .familyF

/-- The decode tree of R95, on the leading nibble. The last arm is the one leading nibble left, F. -/
def decodeWord (op : Opcode) : Except Reject Instr :=
  match fieldN3 op with
  | 0x0#4 => decodeFamily0 op
  | 0x1#4 => .ok (.jp (fieldNnn op))
  | 0x2#4 => .ok (.call (fieldNnn op))
  | 0x3#4 => .ok (.seImm (fieldX op) (fieldKk op))
  | 0x4#4 => .ok (.sneImm (fieldX op) (fieldKk op))
  | 0x5#4 => if fieldN0 op = 0x0#4 then .ok (.seReg (fieldX op) (fieldY op)) else .error .family5
  | 0x6#4 => .ok (.ldImm (fieldX op) (fieldKk op))
  | 0x7#4 => .ok (.addImm (fieldX op) (fieldKk op))
  | 0x8#4 => decodeFamily8 (fieldX op) (fieldY op) (fieldN0 op)
  | 0x9#4 => if fieldN0 op = 0x0#4 then .ok (.sneReg (fieldX op) (fieldY op)) else .error .family9
  | 0xA#4 => .ok (.ldI (fieldNnn op))
  | 0xB#4 => .ok (.jpV0 (fieldNnn op))
  | 0xC#4 => .ok (.rnd (fieldX op) (fieldKk op))
  | 0xD#4 => .ok (.drw (fieldX op) (fieldY op) (fieldN op))
  | 0xE#4 => decodeFamilyE (fieldX op) (fieldKk op)
  | _ => decodeFamilyF (fieldX op) (fieldKk op)

/-- `{hi, lo}`: the instruction word of two bytes, the byte at the lower address the more significant (R67, R91). -/
def wordOfBytes (hi lo : Byte) : Opcode := hi ++ lo

/-- The instruction at the front of a byte list, and the bytes after it (R90, R91). -/
def decode : List Byte → Except Reject (Instr × List Byte)
  | hi :: lo :: rest => (decodeWord (wordOfBytes hi lo)).map (·, rest)
  | _ => .error .tooShort

/-! ### Encoding (R103, R106) -/

/-- A register selector or count as the nibble the word carries. -/
def nibble (x : Fin 16) : BitVec 4 := BitVec.ofFin x

/-- Format NNN: `opc nnn`. -/
def encodeNnn (opc : BitVec 4) (nnn : BitVec 12) : Opcode := opc ++ nnn

/-- Format XKK: `opc x kk`. -/
def encodeXkk (opc : BitVec 4) (x : Reg) (kk : Byte) : Opcode := opc ++ nibble x ++ kk

/-- Format XYN: `opc x y n-or-subopcode`. -/
def encodeXyn (opc : BitVec 4) (x y : Reg) (n : BitVec 4) : Opcode := opc ++ nibble x ++ nibble y ++ n

/-- Format XSUB: `opc x sub`. -/
def encodeXsub (opc : BitVec 4) (x : Reg) (sub : Byte) : Opcode := opc ++ nibble x ++ sub

/-- The word of an instruction, from the patterns of R103 and the layouts of R93. -/
def encode : Instr → Opcode
  | .cls => 0x00E0#16
  | .ret => 0x00EE#16
  | .jp nnn => encodeNnn 0x1#4 nnn
  | .call nnn => encodeNnn 0x2#4 nnn
  | .seImm x kk => encodeXkk 0x3#4 x kk
  | .sneImm x kk => encodeXkk 0x4#4 x kk
  | .seReg x y => encodeXyn 0x5#4 x y 0x0#4
  | .ldImm x kk => encodeXkk 0x6#4 x kk
  | .addImm x kk => encodeXkk 0x7#4 x kk
  | .ldReg x y => encodeXyn 0x8#4 x y 0x0#4
  | .orReg x y => encodeXyn 0x8#4 x y 0x1#4
  | .andReg x y => encodeXyn 0x8#4 x y 0x2#4
  | .xorReg x y => encodeXyn 0x8#4 x y 0x3#4
  | .addReg x y => encodeXyn 0x8#4 x y 0x4#4
  | .subReg x y => encodeXyn 0x8#4 x y 0x5#4
  | .shr x y => encodeXyn 0x8#4 x y 0x6#4
  | .subnReg x y => encodeXyn 0x8#4 x y 0x7#4
  | .shl x y => encodeXyn 0x8#4 x y 0xE#4
  | .sneReg x y => encodeXyn 0x9#4 x y 0x0#4
  | .ldI nnn => encodeNnn 0xA#4 nnn
  | .jpV0 nnn => encodeNnn 0xB#4 nnn
  | .rnd x kk => encodeXkk 0xC#4 x kk
  | .drw x y n => encodeXyn 0xD#4 x y (nibble n)
  | .skp x => encodeXsub 0xE#4 x 0x9E#8
  | .sknp x => encodeXsub 0xE#4 x 0xA1#8
  | .ldVxDt x => encodeXsub 0xF#4 x 0x07#8
  | .ldVxKey x => encodeXsub 0xF#4 x 0x0A#8
  | .ldDtVx x => encodeXsub 0xF#4 x 0x15#8
  | .ldStVx x => encodeXsub 0xF#4 x 0x18#8
  | .addI x => encodeXsub 0xF#4 x 0x1E#8
  | .ldFont x => encodeXsub 0xF#4 x 0x29#8
  | .ldBcd x => encodeXsub 0xF#4 x 0x33#8
  | .storeRegs x => encodeXsub 0xF#4 x 0x55#8
  | .loadRegs x => encodeXsub 0xF#4 x 0x65#8

/-- The two bytes of a word as memory holds them: `op[15:8]` at the lower address, then `op[7:0]` (R106). -/
def bytesOfWord (op : Opcode) : List Byte := [op.extractLsb' 8 8, op.extractLsb' 0 8]

/-! ### The opcode map (R103), as a table to hold the tree against -/

/-- The mask of an instruction's row of the opcode map (R103). -/
def maskOf : Instr → Opcode
  | .cls | .ret => 0xFFFF#16
  | .jp _ | .call _ | .ldI _ | .jpV0 _ => 0xF000#16
  | .seImm _ _ | .sneImm _ _ | .ldImm _ _ | .addImm _ _ | .rnd _ _ => 0xF000#16
  | .drw _ _ _ => 0xF000#16
  | .seReg _ _ | .sneReg _ _ => 0xF00F#16
  | .ldReg _ _ | .orReg _ _ | .andReg _ _ | .xorReg _ _ | .addReg _ _ => 0xF00F#16
  | .subReg _ _ | .shr _ _ | .subnReg _ _ | .shl _ _ => 0xF00F#16
  | .skp _ | .sknp _ => 0xF0FF#16
  | .ldVxDt _ | .ldVxKey _ | .ldDtVx _ | .ldStVx _ | .addI _ => 0xF0FF#16
  | .ldFont _ | .ldBcd _ | .storeRegs _ | .loadRegs _ => 0xF0FF#16

/-- The match value of an instruction's row of the opcode map (R103). -/
def matchOf : Instr → Opcode
  | .cls => 0x00E0#16
  | .ret => 0x00EE#16
  | .jp _ => 0x1000#16
  | .call _ => 0x2000#16
  | .seImm _ _ => 0x3000#16
  | .sneImm _ _ => 0x4000#16
  | .seReg _ _ => 0x5000#16
  | .ldImm _ _ => 0x6000#16
  | .addImm _ _ => 0x7000#16
  | .ldReg _ _ => 0x8000#16
  | .orReg _ _ => 0x8001#16
  | .andReg _ _ => 0x8002#16
  | .xorReg _ _ => 0x8003#16
  | .addReg _ _ => 0x8004#16
  | .subReg _ _ => 0x8005#16
  | .shr _ _ => 0x8006#16
  | .subnReg _ _ => 0x8007#16
  | .shl _ _ => 0x800E#16
  | .sneReg _ _ => 0x9000#16
  | .ldI _ => 0xA000#16
  | .jpV0 _ => 0xB000#16
  | .rnd _ _ => 0xC000#16
  | .drw _ _ _ => 0xD000#16
  | .skp _ => 0xE09E#16
  | .sknp _ => 0xE0A1#16
  | .ldVxDt _ => 0xF007#16
  | .ldVxKey _ => 0xF00A#16
  | .ldDtVx _ => 0xF015#16
  | .ldStVx _ => 0xF018#16
  | .addI _ => 0xF01E#16
  | .ldFont _ => 0xF029#16
  | .ldBcd _ => 0xF033#16
  | .storeRegs _ => 0xF055#16
  | .loadRegs _ => 0xF065#16

/-- The instruction the decoder reads from the table's numbering of a row: `nbits` bits `w`, every bit above them 0, laid
out in memory order and given to `decode` (log entry 15). -/
def decodeTableWord (nbits w : Nat) : Option Instr :=
  if nbits ≤ 16 then
    match decode (bytesOfWord (BitVec.ofNat 16 (w % 2 ^ nbits))) with
    | .ok (i, _) => some i
    | .error _ => none
  else none

end Sys2Proof
end

