-- ==== Sys2Proof/Machine/Event.lean ====
section
/-! DEFINITION. The host events: everything the outside can do to the core (spec/40_step_cycle.md R120, R121; the timed form
of a step is spec/60_exceptions.md R238). -/

namespace Sys2Proof.Machine

/-- How a `Step` says whether an instruction may execute and whether the timers are due. -/
inductive Due where
  /-- The normative interface: the two Booleans `exec_due` and `tick_due`, chosen freely by the host (R121). -/
  | flags (execDue tickDue : Bool)
  /-- The timed refinement: a time stamp from which the core computes both (R238). -/
  | clock (now : Time)
  deriving DecidableEq, Repr

/-- The arguments of one `Step` event (R121). -/
structure StepArgs where
  /-- `exec_due` and `tick_due`, as Booleans or by the clock. -/
  due : Due
  /-- `rnd`: the random byte `Cxkk` uses if it is the instruction executed. -/
  rnd : Byte
  deriving DecidableEq, Repr

/-- The events of the core's interface (R121). -/
inductive Event where
  /-- `Reset`. The time of the reset is what the timed refinement sets its references to (R238); the Boolean interface ignores it. -/
  | reset (now : Time)
  /-- `LoadRom(bytes)`: a program image placed at 0x200 (R79). -/
  | loadRom (bytes : List Byte)
  /-- `KeyDown(k)`: key `k` is pressed. -/
  | keyDown (k : Nat)
  /-- `KeyUp(k)`: key `k` is released. -/
  | keyUp (k : Nat)
  /-- `Step(exec_due, tick_due, rnd)`: the only event in which an instruction executes. -/
  | step (args : StepArgs)
  deriving DecidableEq, Repr

end Sys2Proof.Machine
end

