-- ==== Sys2Proof/Config.lean ====
section
/-! DEFINITION. The parameters of the hardware (spec/00_scope.md R5, R6) and the values the spec leaves free. The
fixed and decided parameters are plain numbers; the parameters of ONE INSTANCE that the spec calls OPEN or selectable at
construction (`FONT`, `QUIRK_SHIFT_SRC`) are a record that State carries and no step changes, so that a claim about every
state holds for every setting; what no rule fixes is an opaque constant without a body. -/

namespace Sys2Proof

namespace Config

/-- `MEM_SIZE`: 4096 bytes, addresses 0x000 to 0xFFF (R5, R60). -/
abbrev memSize : Nat := 4096

/-- `STACK_DEPTH`: 16 entries (R5, R38). -/
abbrev stackDepth : Nat := 16

/-- `PROG_BASE`: where `LoadRom` places a program (R5, R79). -/
abbrev progBase : Nat := 0x200

/-- `RESET_PC` (R5, R50, R251). -/
abbrev resetPc : Addr := 0x200#16

/-- The longest program image `LoadRom` accepts: 3584 bytes (R79). -/
abbrev maxRom : Nat := 3584

/-- `DISP_W`: 64 columns (R5, R42). -/
abbrev dispW : Nat := 64

/-- `DISP_H`: 32 rows (R5, R42). -/
abbrev dispH : Nat := 32

/-- The size of the built-in font: 16 glyphs of 5 bytes at 0 to 79 (R5, R61, R62). -/
abbrev fontBytes : Nat := 80

/-- `T_TICK`: 1/60 second, in units of one sixtieth of a nanosecond (R5, R238; log entry 8). -/
abbrev tTick : Time := 1000000000

/-- `T_EXEC` less one unit. FREE VALUE: the spec gives `T_EXEC` no value, only that it is positive (R124, R238; log entry 8). -/
opaque tExecLessOne : Nat

/-- `T_EXEC`, the minimum time between executed steps: an OPEN positive duration (R5, R238; D10; log entry 8). -/
def tExec : Time := tExecLessOne + 1

/-- What the host does after the script of its events is used up: an event, or none. FREE VALUE: the host chooses the events, their
order and their arguments freely, `tick_due` in no relation to `exec_due`, and "a host may cease" (R121, R135, R237, R261; log entry 1). -/
opaque freeEvent : Nat → Option Machine.Event

/-- The random byte of the `Step` that `withFetchWord` puts before the script. FREE VALUE: "a free 8-bit draw at every step, under
no law" (R172, R241; log entry 2). -/
opaque freeRandom : Nat → Byte

/-- What `fault_opcode` holds after a fault of the fetch, where no word was read. FREE VALUE: "unspecified" (R223; U16; log entry 3). -/
opaque freeOpcode : Nat → Opcode

end Config

/-- The 80 font bytes as the spec lays them out: 16 glyphs of 5 bytes, glyph `d` at `5*d` (R62). -/
abbrev Font := Vector (Vector Byte 5) 16

/-- `QUIRK_SHIFT_SRC`: which register `8xy6` and `8xyE` shift (R173). -/
inductive ShiftSrc where
  /-- The operand is `V[y]`: the default, what the document states for this design. -/
  | vy
  /-- The operand is `V[x]`, and `y` is ignored. -/
  | vx
  deriving DecidableEq, Repr

/-- The parameters of one instance that are chosen at its construction and fixed for its life (R5, R6, R62, R173; log entry 5). -/
structure Params where
  /-- `FONT`: the glyph bytes memory holds at 0 to 79 after a reset. -/
  font : Font
  /-- `QUIRK_SHIFT_SRC`. -/
  shiftSrc : ShiftSrc
  deriving DecidableEq, Repr

/-- The default of `FONT`, the table of R62. PRESUMED: the spec marks the table "from general knowledge, not in source" (log entry 5). -/
def Config.defaultFont : Font :=
  #v[#v[0xF0, 0x90, 0x90, 0x90, 0xF0], #v[0x20, 0x60, 0x20, 0x20, 0x70], #v[0xF0, 0x10, 0xF0, 0x80, 0xF0],
     #v[0xF0, 0x10, 0xF0, 0x10, 0xF0], #v[0x90, 0x90, 0xF0, 0x10, 0x10], #v[0xF0, 0x80, 0xF0, 0x10, 0xF0],
     #v[0xF0, 0x80, 0xF0, 0x90, 0xF0], #v[0xF0, 0x10, 0x20, 0x40, 0x40], #v[0xF0, 0x90, 0xF0, 0x90, 0xF0],
     #v[0xF0, 0x90, 0xF0, 0x10, 0xF0], #v[0xF0, 0x90, 0xF0, 0x90, 0x90], #v[0xE0, 0x90, 0xE0, 0x90, 0xE0],
     #v[0xF0, 0x80, 0x80, 0x80, 0xF0], #v[0xE0, 0x90, 0x90, 0x90, 0xE0], #v[0xF0, 0x80, 0xF0, 0x80, 0xF0],
     #v[0xF0, 0x80, 0xF0, 0x80, 0x80]]

/-- The parameters at their defaults: the table of R62 and `QUIRK_SHIFT_SRC = VY` (R5, R6). -/
def Config.defaultParams : Params := { font := Config.defaultFont, shiftSrc := .vy }

end Sys2Proof
end

