-- ==== Sys2Proof/Machine/State.lean ====
section
/-! DEFINITION. The state of the core as plain data (spec/10_state.md R30), its value after reset (R50), and the reasons a
transition can stop. The last four fields are not the core's: the parameters of the instance (spec/00_scope.md R5) and the
host's side of the interface (spec/40_step_cycle.md R121), held in State because a step is one function of it. -/

namespace Sys2Proof.Machine

/-- The six fault causes (spec/60_exceptions.md R221). Each is TAKEN by the core: the next state is halted and holds the cause
in its fault record (R224), so no transition of this model ends in `Outcome.fault` (log entry 12: safe). -/
inductive Fault where
  /-- Code 1: an executed step fetched an illegal word (R222). Safe: the state halts as the spec says. -/
  | decodeError
  /-- Code 2: `2nnn` with 16 entries on the stack (R39). Safe: the state halts as the spec says. -/
  | stackOverflow
  /-- Code 3: `00EE` with an empty stack (R39). Safe: the state halts as the spec says. -/
  | stackUnderflow
  /-- Code 4: a fetch, or an access of `Dxyn`, `Fx33`, `Fx55`, `Fx65`, with `a + len > 4096` (R64, R223). Safe: the state halts as the spec says. -/
  | memRange
  /-- Code 5: `Ex9E` or `ExA1` with `V[x] > 15` (R200). Safe: the state halts as the spec says. -/
  | keyRange
  /-- Code 6: `Fx29` with `V[x] > 15` (R183). Safe: the state halts as the spec says. -/
  | digitRange
  deriving DecidableEq, Repr

/-- The reasons a transition has no meaning. -/
inductive Refusal where
  /-- Raised by an arm of `exec` whose instruction has no meaning yet; no arm is. Safe: nothing is proved of such a step. -/
  | notModelled (mnemonic : String)
  /-- Raised by the host event `LoadRom` with more than 3584 bytes: "a refusal of the event and not a core fault" (R79). Safe: the spec gives the event no meaning. -/
  | romTooLong
  /-- Raised by the host events `KeyDown` and `KeyUp` with a key id above 15: outside the event's argument type (R121; U20). Safe: the spec gives the event no meaning. -/
  | keyIdRange
  deriving DecidableEq, Repr

/-- Memory as a list of listed bytes in one canonical form (`Memory.wf`); an unlisted address reads as the reset contents (log entry 11). -/
abbrev Memory := List Host.Cell

/-- The display buffer by rows: pixel `Pix[c][r]` is column `c` of row `r` (R42). -/
abbrev Display := Vector (Vector Bool 64) 32

/-- The fault record (R47). -/
structure FaultRecord where
  /-- `fault_cause`: none is code 0, NONE (R221). -/
  cause : Option Fault
  /-- `fault_pc`: the address of the instruction being fetched or executed. -/
  pc : Addr
  /-- `fault_opcode`: the word, where one was fetched. -/
  opcode : Opcode
  /-- `fault_addr`: the base address, key index or digit of the fault, where R221 names one. -/
  addr : Addr
  deriving DecidableEq, Repr

/-- The whole state: the tuple of R30, then the instance's parameters and the host's side. -/
structure State where
  /-- `V[0..15]`, the general registers; `V[15]` is VF (R31, R32). -/
  v : Vector Byte 16
  /-- `I`, the index register (R35). -/
  i : Addr
  /-- `pc`, 16 bits and never masked (R36). -/
  pc : Addr
  /-- The call stack, newest entry first: `sp` is its length, `Stack[j]` its entry counted from the oldest (R38; log entry 9). -/
  stack : List Addr
  /-- `Mem[0..4095]` (R41). -/
  mem : Memory
  /-- `Pix[0..63][0..31]` (R42). -/
  display : Display
  /-- `DT`, the delay timer (R44). -/
  dt : Byte
  /-- `ST`, the sound timer (R44). -/
  st : Byte
  /-- `Key[0..15]`, true when pressed (R45). -/
  keys : Vector Bool 16
  /-- `waiting`, the mode WAITING_FOR_KEY (R46). -/
  waiting : Bool
  /-- `halted`: a fault has occurred (R47). -/
  halted : Bool
  /-- `fault_cause`, `fault_pc`, `fault_opcode`, `fault_addr` (R47). -/
  faultRecord : FaultRecord
  /-- `t_exec_ref`, the time of the previous executed step of the timed refinement (R48, R238). -/
  tExecRef : Time
  /-- `t_tick_ref`, the time of the last decrement of the timed refinement (R48, R238). -/
  tTickRef : Time
  /-- The parameters of this instance, fixed for its life: `FONT` and `QUIRK_SHIFT_SRC` (R5, R173; log entry 5). -/
  params : Params
  /-- The model's own: the arguments of the `Step` in progress, or of the last one (R121; log entry 1). -/
  args : StepArgs
  /-- The model's own: the events the host issues first, in their order; what it does after them is free (R135, R261; log entry 1). -/
  script : List Event
  /-- The model's own: counts transitions, so that every free value is a fresh one (log entries 1, 2, 3). -/
  draws : Nat
  deriving DecidableEq, Repr

/-- What a transition answers. -/
abbrev Result := Host.Outcome State Fault Refusal

/-- The control effect an instruction returns (R128). -/
inductive Effect where
  /-- NEXT: `pc + 2`. -/
  | next
  /-- SKIP: `pc + 4`. -/
  | skip
  /-- JUMP(t): `pc = t`. -/
  | jump (t : Addr)
  /-- WAIT: `pc` unchanged, WAITING_FOR_KEY. -/
  | wait
  deriving DecidableEq, Repr

/-- What the host can read between events (R121): the core's only outputs. -/
structure Output where
  /-- `display`: bit `64*r + c` is `Pix[c][r]` (R240). -/
  display : Vector Bool 2048
  /-- The sound output, the value of `ST` (R242). -/
  sound : Byte
  /-- `waiting` (R46). -/
  waiting : Bool
  /-- `halted` (R47). -/
  halted : Bool
  /-- `fault_cause` as its code (R221). -/
  faultCause : BitVec 3
  /-- `fault_pc`. -/
  faultPc : Addr
  /-- `fault_opcode`. -/
  faultOpcode : Opcode
  /-- `fault_addr`. -/
  faultAddr : Addr
  deriving DecidableEq, Repr

/-- The machine right after `Reset` (R50, R251). `V`, `I`, `pc`, the stack, memory, pixels, timers, keys, `waiting` and
`halted` have the values of R50's table. DESIGN CHOICE (log entry 4): `fault_pc`, `fault_opcode` and `fault_addr`, which
R50 leaves unspecified, are zero. The time of the reset is the origin of time (log entry 8), the parameters are the defaults
(log entry 5). The script is empty, so what the host does is free; `args`, of a `Step` that never was, is read by no step (log
entry 1). -/
def State.reset : State :=
  { v := Vector.replicate 16 0#8
    i := 0x0000#16
    pc := Config.resetPc
    stack := []
    mem := []
    display := Vector.replicate 32 (Vector.replicate 64 false)
    dt := 0#8
    st := 0#8
    keys := Vector.replicate 16 false
    waiting := false
    halted := false
    faultRecord := { cause := none, pc := 0#16, opcode := 0#16, addr := 0#16 }
    tExecRef := 0
    tTickRef := 0
    params := Config.defaultParams
    args := { due := .flags true false, rnd := 0#8 }
    script := []
    draws := 0 }

end Sys2Proof.Machine
end

