-- ==== Sys2Proof/Machine/Ops.lean ====
section
/-! DEFINITION. The named operations every meaning is written over: memory and its one canonical form, registers, the call
stack, the display compositor's primitives, keys, control effects, taking a fault, the fetch and the timer tick. -/

namespace Sys2Proof.Machine

/-! ### Memory (spec/20_memory.md) -/

/-- What an address that memory does not list reads as: the reset contents, `FONT` at 0 to 79 and 0 elsewhere (R50, R61, R62). -/
def Memory.unlisted (font : Font) (a : Nat) : Byte :=
  if h : a < Config.fontBytes then
    (font[a / 5]'(by have : Config.fontBytes = 80 := rfl; omega))[a % 5]'(Nat.mod_lt _ (by decide))
  else 0#8

/-- The byte at an address (R63). -/
def Memory.get (font : Font) : Memory → Nat → Byte
  | [], a => Memory.unlisted font a
  | (b, u) :: m, a => if a = b then u else Memory.get font m a

/-- Memory with one byte written (R65), in canonical form when it was: a byte equal to what its address reads as unlisted is not listed. -/
def Memory.put (font : Font) : Memory → Nat → Byte → Memory
  | [], a, w => if w = Memory.unlisted font a then [] else [(a, w)]
  | (b, u) :: m, a, w =>
    if a < b then
      if w = Memory.unlisted font a then (b, u) :: m else (a, w) :: (b, u) :: m
    else if a = b then
      if w = Memory.unlisted font a then m else (a, w) :: m
    else (b, u) :: Memory.put font m a w

/-- Memory with a list of bytes written from an address upwards (R65). -/
def Memory.putAll (font : Font) : Memory → Nat → List Byte → Memory
  | m, _, [] => m
  | m, a, w :: ws => Memory.putAll font (Memory.put font m a w) (a + 1) ws

/-- The canonical form: addresses strictly rising and below 4096, and no byte equal to what its address reads as unlisted (log entry 11). -/
abbrev Memory.wf (font : Font) (m : Memory) : Prop :=
  m.Pairwise (fun c d => c.1 < d.1) ∧ ∀ c ∈ m, c.1 < Config.memSize ∧ c.2 ≠ Memory.unlisted font c.1

/-- The byte of memory at an address (R63). -/
def State.readByte (s : State) (a : Nat) : Byte := Memory.get s.params.font s.mem a

/-- The range rule: `a + n <= 4096` on natural numbers, for the whole access and also for `n = 0` (R64). -/
def inRange (a n : Nat) : Bool := decide (a + n ≤ Config.memSize)

/-- `MemRead(a, n)`: the `n` bytes from `a` upwards, or none where it raises MEM_RANGE (R63). -/
def State.memRead (s : State) (a n : Nat) : Option (List Byte) :=
  if inRange a n then some ((List.range n).map fun j => s.readByte (a + j)) else none

/-- `MemWrite(a, len(bytes), bytes)`, or none where it raises MEM_RANGE and writes nothing (R65). -/
def State.memWrite (s : State) (a : Nat) (bytes : List Byte) : Option State :=
  if inRange a bytes.length then some { s with mem := Memory.putAll s.params.font s.mem a bytes } else none

/-! ### Registers (spec/10_state.md R31) -/

/-- `V[x]`. -/
def State.readV (s : State) (x : Reg) : Byte := s.v[x]

/-- `V[x] <- b`. -/
def State.setV (s : State) (x : Reg) (b : Byte) : State := { s with v := s.v.set x b }

/-- `V[k] <- bytes[0], V[k+1] <- bytes[1], ...` (the loop of R187); nothing above `V[15]`. -/
def writeRegs : List Byte → Nat → Vector Byte 16 → Vector Byte 16
  | [], _, v => v
  | b :: bytes, k, v => writeRegs bytes (k + 1) (v.setIfInBounds k b)

/-- `V[j] <- bytes[j]` for every `j` below the length of the list (R187). -/
def State.setVs (s : State) (bytes : List Byte) : State := { s with v := writeRegs bytes 0 s.v }

/-- `V[x] <- result`, then the flag to VF as the final register write (R33). -/
def State.setVFlag (s : State) (x : Reg) (result flag : Byte) : State := (s.setV x result).setV vf flag

/-! ### Call stack (R38, R39) -/

/-- `sp`, the depth of the call stack. -/
def State.sp (s : State) : Nat := s.stack.length

/-- `Stack[j]`, counted from the oldest entry; none at `sp` and above, which is not observable (R38). -/
def State.stackEntry (s : State) (j : Nat) : Option Addr := s.stack.reverse[j]?

/-- `Push(v)`, or none where it raises STACK_OVERFLOW: the sixteenth push succeeds, the seventeenth does not. -/
def State.push (s : State) (a : Addr) : Option State :=
  if s.sp < Config.stackDepth then some { s with stack := a :: s.stack } else none

/-- `Pop()`: the most recently pushed entry, or none where it raises STACK_UNDERFLOW. -/
def State.pop (s : State) : Option (Addr × State) :=
  match s.stack with
  | [] => none
  | a :: rest => some (a, { s with stack := rest })

/-! ### Display (spec/45_display.md) -/

/-- The target lies inside the 64x32 grid (R194). -/
def inGrid (c r : Nat) : Bool := decide (c < Config.dispW ∧ r < Config.dispH)

/-- `Pix[c][r]`; off outside the grid. -/
def Display.pixel (d : Display) (c r : Nat) : Bool :=
  if h : c < 64 ∧ r < 32 then (d[r]'h.2)[c]'h.1 else false

/-- `Pix[c][r] <- b`; nothing outside the grid. -/
def Display.setPixel (d : Display) (c r : Nat) (b : Bool) : Display :=
  if h : c < 64 ∧ r < 32 then d.set r ((d[r]'h.2).set c b h.1) h.2 else d

/-- The display with every pixel off (R190 `clear()`). -/
def Display.blank : Display := Vector.replicate 32 (Vector.replicate 64 false)

/-- `bit(r, c)` of a sprite row: column offset `c` is bit `7 - c`, the most significant bit first (R193). -/
def spriteBit (row : Byte) (c : Nat) : Bool := row.getLsbD (7 - c)

/-- One sprite bit at its target: dropped outside the grid, else XORed into the pixel, with the collision ORed in (R194, R195). -/
def drawBit (row : Byte) (x0 ty : Nat) (acc : Display × Bool) (c : Nat) : Display × Bool :=
  if inGrid (x0 + c) ty then
    (acc.1.setPixel (x0 + c) ty (acc.1.pixel (x0 + c) ty ^^ spriteBit row c),
      acc.2 || (acc.1.pixel (x0 + c) ty && spriteBit row c))
  else acc

/-- The eight bits of one sprite row, from the left. -/
def drawRow (row : Byte) (x0 ty : Nat) (acc : Display × Bool) : Display × Bool :=
  (List.range 8).foldl (drawBit row x0 ty) acc

/-- The rows of a sprite, from the top. -/
def drawRows : List Byte → Nat → Nat → Display × Bool → Display × Bool
  | [], _, _, acc => acc
  | row :: rows, x0, ty, acc => drawRows rows x0 (ty + 1) (drawRow row x0 ty acc)

/-- `write_sprite(bytes, x, y)`: the display after it, and whether any drawn bit collided (R190, R192). -/
def writeSprite (rows : List Byte) (x0 y0 : Nat) (d : Display) : Display × Bool :=
  drawRows rows x0 y0 (d, false)

/-! ### Keypad (R45, R239) -/

/-- `Key[k]`. -/
def State.key (s : State) (k : KeyId) : Bool := s.keys[k]

/-- `LowestKey()`: the smallest pressed key id, none when no key is pressed. -/
def State.lowestKey (s : State) : Option KeyId := (List.finRange 16).find? s.key

/-- `Key[k] <- b`, the effect of a key edge. -/
def State.setKey (s : State) (k : KeyId) (b : Bool) : State := { s with keys := s.keys.set k b }

/-! ### Control effects (spec/40_step_cycle.md R128, R131) -/

/-- The program counter after an instruction at `pc`. -/
def Effect.apply (e : Effect) (pc : Addr) : Addr :=
  match e with
  | .next => pc + 2#16
  | .skip => pc + 4#16
  | .jump t => t
  | .wait => pc

/-- Whether the effect is WAIT. -/
def Effect.isWait : Effect → Bool
  | .wait => true
  | .next | .skip | .jump _ => false

/-- The end of an instruction that did not fault: its writes are in `s`, and its control effect sets `pc` and `waiting` (R127, R128, R131). -/
def commit (s : State) (e : Effect) : Result :=
  .next { s with pc := e.apply s.pc, waiting := e.isWait }

/-- NEXT or SKIP by a condition (R150). -/
def skipIf (cond : Bool) : Effect := if cond then .skip else .next

/-! ### Faults (spec/60_exceptions.md R224) -/

/-- Fault entry, the one shared operation: `halted`, the cause, the pc, the opcode, and `fault_addr` where R221's table gives
one; nothing else changes (R132, R224), so where the table gives no `fault_addr` it keeps its value (log entry 6). -/
def State.enterFault (s : State) (cause : Fault) (op : Opcode) (info : Option Addr) : State :=
  { s with
    halted := true
    faultRecord := { cause := some cause, pc := s.pc, opcode := op, addr := info.getD s.faultRecord.addr } }

/-- An instruction that faults: none of its writes is committed (R127). Its word is the instruction's encoding, which is the
word fetched (log entry 7). -/
def takeFault (s : State) (i : Instr) (cause : Fault) (info : Option Addr) : Result :=
  .next (s.enterFault cause (encode i) info)

/-- The code of a fault cause (R221). -/
def Fault.code : Fault → BitVec 3
  | .decodeError => 1#3
  | .stackOverflow => 2#3
  | .stackUnderflow => 3#3
  | .memRange => 4#3
  | .keyRange => 5#3
  | .digitRange => 6#3

/-- `fault_cause` as its code; 0 is NONE (R221). -/
def FaultRecord.code (f : FaultRecord) : BitVec 3 :=
  match f.cause with
  | none => 0#3
  | some c => c.code

/-! ### Fetch (R125) and tick (R236, R238) -/

/-- The instruction word at `pc`, or none where the fetch raises MEM_RANGE (R125). -/
def State.fetch (s : State) : Option Opcode :=
  match s.memRead s.pc.toNat 2 with
  | some [hi, lo] => some (wordOfBytes hi lo)
  | _ => none

/-- The fault of a fetch: `fault_addr = fault_pc = pc`, and `fault_opcode` is a FREE VALUE, "unspecified" (R223; log entry 3). -/
def State.fetchFault (s : State) : State :=
  s.enterFault .memRange (Config.freeOpcode s.draws) (some s.pc)

/-- The fault of an illegal word (R222). -/
def State.decodeFault (s : State) (op : Opcode) : State :=
  s.enterFault .decodeError op none

/-- `exec_due` of the `Step` in progress: its argument, or by the clock `now - t_exec_ref >= T_EXEC` (R121, R238). -/
def State.execDue (s : State) : Bool :=
  match s.args.due with
  | .flags execDue _ => execDue
  | .clock now => decide (s.tExecRef + Config.tExec ≤ now)

/-- `tick_due` of the `Step` in progress: its argument, or by the clock `now - t_tick_ref >= T_TICK` (R121, R238). -/
def State.tickDue (s : State) : Bool :=
  match s.args.due with
  | .flags _ tickDue => tickDue
  | .clock now => decide (s.tTickRef + Config.tTick ≤ now)

/-- `max(t - 1, 0)` of a timer (R236). -/
def decrement (t : Byte) : Byte := if t = 0#8 then 0#8 else t - 1#8

/-- The reference time of the timers after a decrement: the step's time stamp, where it has one (R238). -/
def StepArgs.timeOr (a : StepArgs) (t : Time) : Time :=
  match a.due with
  | .flags _ _ => t
  | .clock now => now

/-- The timer tick, the last action of every step that neither is halted nor faults (R129, R130, R236). -/
def State.tick (s : State) : State :=
  if s.tickDue then
    { s with dt := decrement s.dt, st := decrement s.st, tTickRef := s.args.timeOr s.tTickRef }
  else s

/-- A step has executed an instruction: `t_exec_ref` becomes its time stamp, where it has one (R238). -/
def State.markExecuted (s : State) : State := { s with tExecRef := s.args.timeOr s.tExecRef }

end Sys2Proof.Machine
end

