-- ==== Sys2Proof/Machine/Flags.lean ====
section
/-! DEFINITION. Every value VF is given as a flag, always 0x00 or 0x01 (spec/10_state.md R32, spec/43_alu.md R160). -/

namespace Sys2Proof.Machine

/-- A flag as the byte VF holds: 0x01 or 0x00 (R32). -/
def flagByte (b : Bool) : Byte := if b then 1#8 else 0#8

/-- The carry of `8xy4`: the sum of the operands, as natural numbers, is above 255 (R167). -/
def carryFlag (a b : Byte) : Byte := flagByte (decide (a.toNat + b.toNat > 255))

/-- The not-borrow of `a - b`: `a >= b`, unsigned (R160, R168, R170). -/
def notBorrowFlag (a b : Byte) : Byte := flagByte (decide (a.toNat ≥ b.toNat))

/-- The bit `8xy6` shifts out: bit 0 of the operand (R169). -/
def shiftedOutRight (a : Byte) : Byte := a &&& 1#8

/-- The bit `8xyE` shifts out: bit 7 of the operand (R171). -/
def shiftedOutLeft (a : Byte) : Byte := a >>> 7

/-- The collision of `Dxyn` (R192, R195). -/
def collisionFlag (coll : Bool) : Byte := flagByte coll

end Sys2Proof.Machine
end

