-- ==== Sys2Proof/Machine/Operands.lean ====
section
/-! DEFINITION. The operand forms: the 12-bit address, the shift operand, the register range, the sprite and table indices
and the decimal digits (spec/30_encoding.md R94 and the rules named at each). -/

namespace Sys2Proof.Machine

/-- `zext_16(nnn)`: the 12-bit address as it is written to `pc` or `I` (R94). -/
def zextNnn (nnn : BitVec 12) : Addr := nnn.setWidth 16

/-- `zext_16(V[x])`. -/
def zextByte (b : Byte) : Addr := b.setWidth 16

/-- `s` of `8xy6` and `8xyE`: `V[y]`, or `V[x]` where `QUIRK_SHIFT_SRC` is `VX` (R173). -/
def State.shiftOperand (s : State) (x y : Reg) : Byte :=
  match s.params.shiftSrc with
  | .vy => s.readV y
  | .vx => s.readV x

/-- `[V[0], ..., V[x]]`: the `x + 1` registers `Fx55` stores (R185, R186). -/
def State.regsUpTo (s : State) (x : Reg) : List Byte :=
  List.ofFn fun j : Fin (x.val + 1) => s.readV (j.castLE (Nat.succ_le_of_lt x.isLt))

/-- A whole byte as an index 0 to 15, none above: a key id or a font digit (R183, R200). -/
def index16 (b : Byte) : Option (Fin 16) :=
  if h : b.toNat < 16 then some ⟨b.toNat, h⟩ else none

/-- `sprite_address(d)`: `5 * d` (R183). -/
def glyphAddr (d : Fin 16) : Addr := BitVec.ofNat 16 (5 * d.val)

/-- The three decimal digits of a byte: hundreds, tens, ones (R184). -/
def bcdDigits (b : Byte) : List Byte :=
  [BitVec.ofNat 8 (b.toNat / 100), BitVec.ofNat 8 (b.toNat / 10 % 10), BitVec.ofNat 8 (b.toNat % 10)]

/-- A key id as the byte `Fx0A` writes (R203). -/
def keyByte (k : KeyId) : Byte := BitVec.ofNat 8 k.val

end Sys2Proof.Machine
end

