-- ==== Sys2Proof/Machine/Alu.lean ====
section
/-! DEFINITION. Register load, arithmetic, logic, shift and random: `6xkk`, `7xkk`, `8xy0` to `8xyE`, `Cxkk`
(spec/43_alu.md R160 to R174). Every operand is read from the state before the step; the result goes to `V[x]`, and a flag to
VF last (R174). -/

namespace Sys2Proof.Machine

/-- `6xkk` LD Vx, kk: `V[x] <- kk` (R161). -/
def execLdImm (x : Reg) (kk : Byte) (s : State) : Result := commit (s.setV x kk) .next

/-- `7xkk` ADD Vx, kk: `V[x] <- (V[x] + kk) mod 256`; VF is not written (R162). -/
def execAddImm (x : Reg) (kk : Byte) (s : State) : Result := commit (s.setV x (s.readV x + kk)) .next

/-- `8xy0` LD Vx, Vy: `V[x] <- V[y]` (R163). -/
def execLdReg (x y : Reg) (s : State) : Result := commit (s.setV x (s.readV y)) .next

/-- `8xy1` OR: `V[x] <- V[x] | V[y]` (R164). -/
def execOrReg (x y : Reg) (s : State) : Result := commit (s.setV x (s.readV x ||| s.readV y)) .next

/-- `8xy2` AND: `V[x] <- V[x] & V[y]` (R165). -/
def execAndReg (x y : Reg) (s : State) : Result := commit (s.setV x (s.readV x &&& s.readV y)) .next

/-- `8xy3` XOR: `V[x] <- V[x] ^ V[y]` (R166). -/
def execXorReg (x y : Reg) (s : State) : Result := commit (s.setV x (s.readV x ^^^ s.readV y)) .next

/-- `8xy4` ADD: the sum modulo 256, then VF = carry (R167). -/
def execAddReg (x y : Reg) (s : State) : Result :=
  commit (s.setVFlag x (s.readV x + s.readV y) (carryFlag (s.readV x) (s.readV y))) .next

/-- `8xy5` SUB: `V[x] - V[y]` modulo 256, then VF = not-borrow (R168). -/
def execSubReg (x y : Reg) (s : State) : Result :=
  commit (s.setVFlag x (s.readV x - s.readV y) (notBorrowFlag (s.readV x) (s.readV y))) .next

/-- `8xy6` SHR: the operand shifted right by one, then VF = the bit shifted out (R169). -/
def execShr (x y : Reg) (s : State) : Result :=
  commit (s.setVFlag x (s.shiftOperand x y >>> 1) (shiftedOutRight (s.shiftOperand x y))) .next

/-- `8xy7` SUBN: `V[y] - V[x]` modulo 256, then VF = not-borrow; the shift-source parameter has no effect (R170, R173). -/
def execSubnReg (x y : Reg) (s : State) : Result :=
  commit (s.setVFlag x (s.readV y - s.readV x) (notBorrowFlag (s.readV y) (s.readV x))) .next

/-- `8xyE` SHL: the operand shifted left by one modulo 256, then VF = the bit shifted out (R171). -/
def execShl (x y : Reg) (s : State) : Result :=
  commit (s.setVFlag x (s.shiftOperand x y <<< 1) (shiftedOutLeft (s.shiftOperand x y))) .next

/-- `Cxkk` RND: `V[x] <- rnd & kk`, with `rnd` the random byte of the `Step` in progress (R172). -/
def execRnd (x : Reg) (kk : Byte) (s : State) : Result := commit (s.setV x (s.args.rnd &&& kk)) .next

end Sys2Proof.Machine
end

