-- ==== Sys2Proof/Machine/Display.lean ====
section
/-! DEFINITION. The display: `00E0` and `Dxyn` (spec/45_display.md R190 to R197). -/

namespace Sys2Proof.Machine

/-- `00E0` CLS: every pixel off (R191). -/
def execCls (s : State) : Result := commit { s with display := Display.blank } .next

/-- `Dxyn` DRW: the `n` bytes at `I` XORed onto the display with the origin at (`V[x]`, `V[y]`), then VF = collision; MEM_RANGE
when `I + n > 4096` (R192). -/
def execDrw (x y : Reg) (n : Fin 16) (s : State) : Result :=
  match s.memRead s.i.toNat n.val with
  | none => takeFault s (.drw x y n) .memRange (some s.i)
  | some rows =>
    let drawn := writeSprite rows (s.readV x).toNat (s.readV y).toNat s.display
    commit ({ s with display := drawn.1 }.setV vf (collisionFlag drawn.2)) .next

end Sys2Proof.Machine
end

