-- ==== Sys2Proof/Machine/Flow.lean ====
section
/-! DEFINITION. Control transfer: `00EE`, `1nnn`, `2nnn`, `Bnnn` (spec/41_flow.md R140 to R144). -/

namespace Sys2Proof.Machine

/-- `00EE` RET: `t <- Pop(); effect JUMP(t)` (R141). -/
def execRet (s : State) : Result :=
  match s.pop with
  | none => takeFault s .ret .stackUnderflow none
  | some (t, s') => commit s' (.jump t)

/-- `1nnn` JP: `effect JUMP(zext_16(nnn))` (R142). -/
def execJp (nnn : BitVec 12) (s : State) : Result := commit s (.jump (zextNnn nnn))

/-- `2nnn` CALL: `Push(trunc_16(pc + 2)); effect JUMP(zext_16(nnn))` (R143). -/
def execCall (nnn : BitVec 12) (s : State) : Result :=
  match s.push (s.pc + 2#16) with
  | none => takeFault s (.call nnn) .stackOverflow none
  | some s' => commit s' (.jump (zextNnn nnn))

/-- `Bnnn` JP V0: `effect JUMP(zext_16(nnn) + zext_16(V[0]))`, not reduced modulo 4096 (R144). -/
def execJpV0 (nnn : BitVec 12) (s : State) : Result :=
  commit s (.jump (zextNnn nnn + zextByte (s.readV 0)))

end Sys2Proof.Machine
end

