-- ==== Sys2Proof/Machine/IndexMemory.lean ====
section
/-! DEFINITION. The index register and memory: `Annn`, `Fx1E`, `Fx29`, `Fx33`, `Fx55`, `Fx65` (spec/44_index_memory.md R180 to
R187). The whole access is checked before anything is read or written, and `I` is never changed by an access. -/

namespace Sys2Proof.Machine

/-- `Annn` LD I, nnn: `I <- zext_16(nnn)` (R181). -/
def execLdI (nnn : BitVec 12) (s : State) : Result := commit { s with i := zextNnn nnn } .next

/-- `Fx1E` ADD I, Vx: `I <- (I + zext_16(V[x])) mod 65536`; VF is not written (R182). -/
def execAddI (x : Reg) (s : State) : Result := commit { s with i := s.i + zextByte (s.readV x) } .next

/-- `Fx29` LD F, Vx: `I <- 5 * V[x]`, or DIGIT_RANGE when `V[x] > 15` (R183). -/
def execLdFont (x : Reg) (s : State) : Result :=
  match index16 (s.readV x) with
  | none => takeFault s (.ldFont x) .digitRange (some (zextByte (s.readV x)))
  | some d => commit { s with i := glyphAddr d } .next

/-- `Fx33` LD B, Vx: the decimal digits of `V[x]` to `Mem[I..I+2]` (R184). -/
def execLdBcd (x : Reg) (s : State) : Result :=
  match s.memWrite s.i.toNat (bcdDigits (s.readV x)) with
  | none => takeFault s (.ldBcd x) .memRange (some s.i)
  | some s' => commit s' .next

/-- `Fx55` LD [I], Vx: `V[0..x]` to `Mem[I..I+x]` (R186). -/
def execStoreRegs (x : Reg) (s : State) : Result :=
  match s.memWrite s.i.toNat (s.regsUpTo x) with
  | none => takeFault s (.storeRegs x) .memRange (some s.i)
  | some s' => commit s' .next

/-- `Fx65` LD Vx, [I]: `Mem[I..I+x]` to `V[0..x]` (R187). -/
def execLoadRegs (x : Reg) (s : State) : Result :=
  match s.memRead s.i.toNat (x.val + 1) with
  | none => takeFault s (.loadRegs x) .memRange (some s.i)
  | some bytes => commit (s.setVs bytes) .next

end Sys2Proof.Machine
end

