-- ==== Sys2Proof/Machine/KeypadTimer.lean ====
section
/-! DEFINITION. The keypad and the timers: `Ex9E`, `ExA1`, `Fx0A`, `Fx07`, `Fx15`, `Fx18` (spec/46_keypad_timer.md R200 to R206). -/

namespace Sys2Proof.Machine

/-- `Ex9E` SKP: SKIP if key `V[x]` is pressed, or KEY_RANGE when `V[x] > 15` (R201). -/
def execSkp (x : Reg) (s : State) : Result :=
  match index16 (s.readV x) with
  | none => takeFault s (.skp x) .keyRange (some (zextByte (s.readV x)))
  | some k => commit s (skipIf (s.key k))

/-- `ExA1` SKNP: SKIP if key `V[x]` is not pressed, or KEY_RANGE when `V[x] > 15` (R202). -/
def execSknp (x : Reg) (s : State) : Result :=
  match index16 (s.readV x) with
  | none => takeFault s (.sknp x) .keyRange (some (zextByte (s.readV x)))
  | some k => commit s (skipIf (!s.key k))

/-- `Fx07` LD Vx, DT: `V[x] <- DT` (R204). -/
def execLdVxDt (x : Reg) (s : State) : Result := commit (s.setV x s.dt) .next

/-- `Fx0A` LD Vx, K: WAIT while no key is pressed, else `V[x] <- LowestKey()` (R203). -/
def execLdVxKey (x : Reg) (s : State) : Result :=
  match s.lowestKey with
  | none => commit s .wait
  | some k => commit (s.setV x (keyByte k)) .next

/-- `Fx15` LD DT, Vx: `DT <- V[x]` (R205). -/
def execLdDtVx (x : Reg) (s : State) : Result := commit { s with dt := s.readV x } .next

/-- `Fx18` LD ST, Vx: `ST <- V[x]` (R206). -/
def execLdStVx (x : Reg) (s : State) : Result := commit { s with st := s.readV x } .next

end Sys2Proof.Machine
end

