-- ==== Sys2Proof/Machine/Skip.lean ====
section
/-! DEFINITION. Conditional skips on registers: `3xkk`, `4xkk`, `5xy0`, `9xy0` (spec/42_skip.md R150 to R154). -/

namespace Sys2Proof.Machine

/-- `3xkk` SE Vx, kk: SKIP if `V[x] = kk` (R151). -/
def execSeImm (x : Reg) (kk : Byte) (s : State) : Result := commit s (skipIf (decide (s.readV x = kk)))

/-- `4xkk` SNE Vx, kk: SKIP if `V[x] != kk` (R152). -/
def execSneImm (x : Reg) (kk : Byte) (s : State) : Result := commit s (skipIf (decide (s.readV x ≠ kk)))

/-- `5xy0` SE Vx, Vy: SKIP if `V[x] = V[y]` (R153). -/
def execSeReg (x y : Reg) (s : State) : Result := commit s (skipIf (decide (s.readV x = s.readV y)))

/-- `9xy0` SNE Vx, Vy: SKIP if `V[x] != V[y]` (R154). -/
def execSneReg (x y : Reg) (s : State) : Result := commit s (skipIf (decide (s.readV x ≠ s.readV y)))

end Sys2Proof.Machine
end

