-- ==== Sys2Proof/WellFormed.lean ====
section
/-! DEFINITION. What the types of the syntax do not already say. An instruction needs no check: every field's type is
exactly its range and "all 16 values are legal in every instruction that has the field" (spec/30_encoding.md R94), so every
term of `Instr` is well formed. A host event has two checks: the length of a program image and the range of a key id
(spec/20_memory.md R79; spec/40_step_cycle.md R121; U19, U20 of spec/93_implementation_defined.md). -/

namespace Sys2Proof.Machine

/-- A program image fits in 0x200 to 0xFFF (R79: `len(bytes) <= 3584`). -/
def romFits (bytes : List Byte) : Bool := decide (bytes.length ≤ Config.maxRom)

/-- A key id is one of 0x0 to 0xF (R121: `k` in 0..15). -/
def keyInRange (k : Nat) : Bool := decide (k < 16)

/-- The events the host may issue. -/
def Event.wellFormed : Event → Bool
  | .reset _ => true
  | .loadRom bytes => romFits bytes
  | .keyDown k => keyInRange k
  | .keyUp k => keyInRange k
  | .step _ => true

end Sys2Proof.Machine
end

