-- ==== Sys2Proof/Machine/Cycle.lean ====
section
/-! DEFINITION. The step cycle of R137 (spec/40_step_cycle.md) and the effect of each host event (R121), over `exec`. -/

namespace Sys2Proof.Machine

/-- The end of a step in which an instruction was executed: the tick, unless the instruction faulted (R129, R132). -/
def State.finishExecuted (s : State) : State := if s.halted then s else s.markExecuted.tick

/-- A state function on the next state of an outcome. -/
def mapNext (f : State → State) : Result → Result
  | .next s => .next (f s)
  | .fault r => .fault r
  | .refused r => .refused r

/-- The `Step` event with the arguments in `s.args` (R122, R137): nothing when halted; no fetch when rate-limited; else fetch,
decode, execute, and tick. -/
def cycle (s : State) : Result :=
  if s.halted then .next s
  else if s.execDue then
    match s.fetch with
    | none => .next s.fetchFault
    | some op =>
      match decodeWord op with
      | .error _ => .next (s.decodeFault op)
      | .ok i => mapNext State.finishExecuted (exec i s)
  else .next s.tick

/-- `Reset` at a time: the values of R50, whatever the state was, with both reference times the time of the reset (R238,
R250). The instance's parameters and the host's side stay as they are (log entry 13). -/
def State.resetAt (s : State) (now : Time) : State :=
  { State.reset with
    tExecRef := now
    tTickRef := now
    params := s.params
    args := s.args
    script := s.script
    draws := s.draws }

/-- `LoadRom(bytes)`: `MemWrite(0x200, len(bytes), bytes)` and nothing else, refused above 3584 bytes (R79). -/
def loadRom (bytes : List Byte) (s : State) : Result :=
  if romFits bytes then
    match s.memWrite Config.progBase bytes with
    | some s' => .next s'
    | none => .refused .romTooLong
  else .refused .romTooLong

/-- `KeyDown(k)` and `KeyUp(k)`, refused outside 0 to 15 (R121, R239). -/
def keyEdge (k : Nat) (down : Bool) (s : State) : Result :=
  if h : k < 16 then .next (s.setKey ⟨k, h⟩ down) else .refused .keyIdRange

/-- One host event, atomic and complete (R121, R135). -/
def perform (e : Event) (s : State) : Result :=
  match e with
  | .reset now => .next (s.resetAt now)
  | .loadRom bytes => loadRom bytes s
  | .keyDown k => keyEdge k true s
  | .keyUp k => keyEdge k false s
  | .step args => cycle { s with args := args }

/-- What the host does next: the first event of its script; when the script is used up, a free choice, an event it may issue or
none at all, of which nothing is known (R121, R136, R237, R261; log entries 1, 14). -/
def State.nextEvent (s : State) : Option Event :=
  match s.script with
  | e :: _ => some e
  | [] => (Config.freeEvent s.draws).filter Event.wellFormed

/-- The host's side once its next choice is made. -/
def State.consume (s : State) : State := { s with script := s.script.tail, draws := s.draws + 1 }

/-- What the host reads between events (R121, R240, R242). -/
def State.output (s : State) : Output :=
  { display := Vector.ofFn fun b : Fin 2048 => Display.pixel s.display (b.val % 64) (b.val / 64)
    sound := s.st
    waiting := s.waiting
    halted := s.halted
    faultCause := s.faultRecord.code
    faultPc := s.faultRecord.pc
    faultOpcode := s.faultRecord.opcode
    faultAddr := s.faultRecord.addr }

/-- Whether the script begins with a `Step` that may execute by its own Boolean argument. -/
def State.willExecute (s : State) : Bool :=
  match s.script with
  | .step { due := .flags execDue _, rnd := _ } :: _ => execDue
  | .step { due := .clock _, rnd := _ } :: _ => false
  | .reset _ :: _ | .loadRom _ :: _ | .keyDown _ :: _ | .keyUp _ :: _ | [] => false

/-- The script with a `Step` that may execute in front, unless it begins with one. -/
def State.scriptToExecute (s : State) : List Event :=
  if s.willExecute then s.script
  else .step { due := .flags true false, rnd := Config.freeRandom s.draws } :: s.script

end Sys2Proof.Machine
end

