-- ==== Sys2Proof/Machine/Step.lean ====
section
/-! DEFINITION. One transition of the machine: the host's next event, if it issues one (spec/40_step_cycle.md R120, R135). -/

namespace Sys2Proof.Machine

/-- The next event of the host, performed whole; where the host issues none, nothing happens (R120; U21 of
spec/93_implementation_defined.md: "no move"). In every state whose next event is a `Step` this is R137's step. -/
def step (s : State) : Host.Outcome State Fault Refusal :=
  match s.nextEvent with
  | none => .next s.consume
  | some e => perform e s.consume

/-- `s` with an instruction stored where the next step fetches: its two bytes at `pc` (at 0x200 where `pc` is one from which
nothing can be fetched), not halted, and a script that begins with a `Step` allowed to execute (log entry 10). -/
def State.withFetchWord (s : State) (nbits w : Nat) : State :=
  let pc := if inRange s.pc.toNat 2 then s.pc else Config.resetPc
  { s with
    pc := pc
    mem := Memory.putAll s.params.font s.mem pc.toNat (bytesOfWord (BitVec.ofNat 16 (w % 2 ^ nbits)))
    halted := false
    script := s.scriptToExecute }

end Sys2Proof.Machine
end

