-- ==== Sys2Proof/Safety.lean ====
section
/-! DEFINITION. What counts as a safe run, and the words claims are made in: the invariant, the states some host can reach, what
an instruction may change (spec/10_state.md R49), when it faults (spec/60_exceptions.md R221), and what a sprite covers
(spec/45_display.md R193, R194). -/

namespace Sys2Proof.Machine

/-! ### Runs -/

/-- A state is safe while no fault has occurred: a halted state is "faulted and never final" (R227). -/
def State.Safe (s : State) : Prop := s.halted = false

/-- A list of host events performed in order, stopping at the first that is refused (R135). -/
def runEvents : List Event → State → Result
  | [], s => .next s
  | e :: es, s =>
    match perform e s with
    | .next t => runEvents es t
    | .fault r => .fault r
    | .refused r => .refused r

/-- A machine right after `Reset`, for any parameters of the instance and any host (R5, R50, R121). -/
def State.Start (s : State) : Prop :=
  ∃ params args script draws,
    s = { State.reset with params := params, args := args, script := script, draws := draws }

/-- The values R50's table gives each piece of state after a reset (the two reference times apart). The font is the instance's. -/
structure HasResetValues (s : State) : Prop where
  /-- `V[0..15]` all 0x00. -/
  v : ∀ x, s.readV x = 0#8
  /-- `I` 0x0000. -/
  i : s.i = 0#16
  /-- `pc` 0x0200. -/
  pc : s.pc = 0x200#16
  /-- `sp` 0. -/
  sp : s.sp = 0
  /-- `Mem[0..79]` the font: row `r` of glyph `d` at `5*d + r`. -/
  font : ∀ (d : Fin 16) (r : Fin 5), s.readByte (5 * d.val + r.val) = s.params.font[d][r]
  /-- `Mem[80..4095]` all 0x00. -/
  mem : ∀ a, 80 ≤ a → a < 4096 → s.readByte a = 0#8
  /-- `Pix` all 0. -/
  display : ∀ c r, s.display.pixel c r = false
  /-- `DT` 0x00. -/
  dt : s.dt = 0#8
  /-- `ST` 0x00. -/
  st : s.st = 0#8
  /-- `Key[0..15]` all 0. -/
  keys : ∀ k, s.key k = false
  /-- `waiting` 0. -/
  waiting : s.waiting = false
  /-- `halted` 0. -/
  halted : s.halted = false

/-- The states a machine can come to from a reset, whatever the host does. -/
inductive Reachable : State → Prop where
  | start {s : State} : s.Start → Reachable s
  | step {s t : State} : Reachable s → step s = .next t → Reachable t

/-! ### The invariant -/

/-- What holds at reset and after every transition. -/
structure Inv (s : State) : Prop where
  /-- Memory is in its canonical form (log entry 11). -/
  mem : Memory.wf s.params.font s.mem
  /-- "depth <= 16" (R38). -/
  depth : s.sp ≤ 16
  /-- A return address is one `2nnn` pushed as "`pc + 2 <= 0x1000`" (R37). -/
  entries : ∀ a ∈ s.stack, a.toNat ≤ 0x1000
  /-- "after reset `pc <= 0x10FE` always" (R37). -/
  pc : s.pc.toNat ≤ 0x10FE
  /-- `fault_cause` is NONE exactly while `halted` is 0 (R221). -/
  cause : s.halted = s.faultRecord.cause.isSome
  /-- Faults are precise: `pc = fault_pc` (R226). -/
  precise : s.halted = true → s.faultRecord.pc = s.pc

/-- While the core waits, the word at `pc` is an `Fx0A` (R46: "`pc` still points at the `Fx0A` that set it"). -/
def State.WaitsAtKeyWait (s : State) : Prop :=
  s.waiting = true → ∃ op x, s.fetch = some op ∧ decodeWord op = .ok (.ldVxKey x)

/-! ### Encodings -/

/-- Every word of a row of the opcode map, `op & mask = match`, decodes to the instruction with the fields of that word (R95, R103). -/
def Encodes (mask matchValue : Opcode) (instr : Opcode → Instr) : Prop :=
  ∀ op, op &&& mask = matchValue → decodeWord op = .ok (instr op)

/-! ### When an instruction faults (R221) -/

/-- The fault an instruction raises in a state and the `fault_addr` it names; none where it does not fault (the table of R221). -/
def faultOf (i : Instr) (s : State) : Option (Fault × Option Addr) :=
  match i with
  | .ret => if s.sp = 0 then some (.stackUnderflow, none) else none
  | .call _ => if 16 ≤ s.sp then some (.stackOverflow, none) else none
  | .drw _ _ n => if 4096 < s.i.toNat + n.val then some (.memRange, some s.i) else none
  | .ldBcd _ => if 4096 < s.i.toNat + 3 then some (.memRange, some s.i) else none
  | .storeRegs x | .loadRegs x => if 4096 < s.i.toNat + x.val + 1 then some (.memRange, some s.i) else none
  | .skp x | .sknp x => if 15 < (s.readV x).toNat then some (.keyRange, some (zextByte (s.readV x))) else none
  | .ldFont x => if 15 < (s.readV x).toNat then some (.digitRange, some (zextByte (s.readV x))) else none
  | .cls | .jp _ | .seImm _ _ | .sneImm _ _ | .seReg _ _ | .ldImm _ _ | .addImm _ _ | .ldReg _ _ => none
  | .orReg _ _ | .andReg _ _ | .xorReg _ _ | .addReg _ _ | .subReg _ _ | .shr _ _ | .subnReg _ _ => none
  | .shl _ _ | .sneReg _ _ | .ldI _ | .jpV0 _ | .rnd _ _ | .ldVxDt _ | .ldVxKey _ | .ldDtVx _ => none
  | .ldStVx _ | .addI _ => none

/-! ### What an instruction may change (R49) -/

/-- What one instruction writes beside `pc` and `waiting`. -/
structure Footprint where
  /-- The general registers written. -/
  regs : List Reg := []
  /-- The bytes of memory written, as a base address and a length. -/
  stored : Nat × Nat := (0, 0)
  /-- `I` is written. -/
  i : Bool := false
  /-- The call stack is pushed or popped. -/
  stack : Bool := false
  /-- Pixels are written. -/
  display : Bool := false
  /-- `DT` is written. -/
  dt : Bool := false
  /-- `ST` is written. -/
  st : Bool := false
  deriving DecidableEq, Repr

/-- The registers `V0` to `Vx`. -/
def regsThrough (x : Reg) : List Reg := (List.finRange 16).filter fun r => decide (r ≤ x)

/-- The "w" columns of R49's table for an instruction in a state; the bytes stored to start at `I` (R180). -/
def footprintOf (i : Instr) (s : State) : Footprint :=
  match i with
  | .cls => { display := true }
  | .ret | .call _ => { stack := true }
  | .jp _ | .jpV0 _ => {}
  | .seImm _ _ | .sneImm _ _ | .seReg _ _ | .sneReg _ _ | .skp _ | .sknp _ => {}
  | .ldImm x _ | .addImm x _ | .ldReg x _ | .orReg x _ | .andReg x _ | .xorReg x _ => { regs := [x] }
  | .rnd x _ | .ldVxDt x => { regs := [x] }
  | .ldVxKey x => { regs := if s.lowestKey = none then [] else [x] }
  | .addReg x _ | .subReg x _ | .shr x _ | .subnReg x _ | .shl x _ => { regs := [x, vf] }
  | .ldI _ | .addI _ | .ldFont _ => { i := true }
  | .drw _ _ _ => { regs := [vf], display := true }
  | .ldDtVx _ => { dt := true }
  | .ldStVx _ => { st := true }
  | .ldBcd _ => { stored := (s.i.toNat, 3) }
  | .storeRegs x => { stored := (s.i.toNat, x.val + 1) }
  | .loadRegs x => { regs := regsThrough x }

/-- Everything outside a footprint is as it was: registers, flags, every byte of memory read one at a time, and all the rest of
the state but `pc` and `waiting`. -/
structure Unchanged (f : Footprint) (s t : State) : Prop where
  /-- Every register outside the footprint. -/
  regs : ∀ r, r ∉ f.regs → t.readV r = s.readV r
  /-- Every byte of memory outside the bytes stored. -/
  bytes : ∀ a, ¬(f.stored.1 ≤ a ∧ a < f.stored.1 + f.stored.2) → t.readByte a = s.readByte a
  /-- `I`, unless it is in the footprint. -/
  i : f.i = false → t.i = s.i
  /-- The call stack, unless it is in the footprint. -/
  stack : f.stack = false → t.stack = s.stack
  /-- Every pixel, unless the display is in the footprint. -/
  display : f.display = false → t.display = s.display
  /-- `DT`, unless it is in the footprint. -/
  dt : f.dt = false → t.dt = s.dt
  /-- `ST`, unless it is in the footprint. -/
  st : f.st = false → t.st = s.st
  /-- No instruction writes a key. -/
  keys : t.keys = s.keys
  /-- No completed instruction writes `halted`. -/
  halted : t.halted = s.halted
  /-- No completed instruction writes the fault record. -/
  faultRecord : t.faultRecord = s.faultRecord
  /-- No instruction writes the reference time of the rate limiter. -/
  tExecRef : t.tExecRef = s.tExecRef
  /-- No instruction writes the reference time of the timers. -/
  tTickRef : t.tTickRef = s.tTickRef
  /-- No instruction writes the instance's parameters. -/
  params : t.params = s.params
  /-- No instruction writes the arguments of the step. -/
  args : t.args = s.args
  /-- No instruction writes the host's script. -/
  script : t.script = s.script
  /-- No instruction draws a free value of its own. -/
  draws : t.draws = s.draws

/-! ### What a sprite covers (R193, R194) -/

/-- Whether a sprite of the rows `rows` with its origin at (`x0`, `y0`) has a bit equal to 1 whose target is (`c`, `r`). The sums
are natural numbers and nothing wraps; whether the target is inside the grid is asked apart. -/
def spriteCovers (rows : List Byte) (x0 y0 c r : Nat) : Bool :=
  decide (x0 ≤ c ∧ c < x0 + 8 ∧ y0 ≤ r ∧ r < y0 + rows.length) && spriteBit (rows.getD (r - y0) 0#8) (c - x0)

end Sys2Proof.Machine
end

