-- ==== Sys2Proof/Certificates/Slice0/Obligations.lean ====
section
/-! DEFINITION. The statements for the provers. Each docstring names the rules it formalises. A statement about an instruction
says that it completes, in which states, what it leaves, and through `Unchanged` that it changes nothing else. Where a state
that no run reaches could make a statement false, the canonical form of memory is a premise (`Memory.wf`, an invariant by
`StepKeepsInvariant`); it is the only invariant any statement assumes. -/

open Sys2Proof Sys2Proof.Machine

/-! ### Encoding (spec/30_encoding.md) -/

/-- Decoding the two bytes of any instruction, whatever follows them, gives it back with every operand (R92, R106). -/
def Obligations.DecodeEncodeRoundTrip : Prop :=
  ∀ (i : Instr) (rest : List Byte), decode (bytesOfWord (encode i) ++ rest) = .ok (i, rest)

/-- A word that decodes is the encoding of what it decodes to: each instruction has one word (R106). -/
def Obligations.EncodeDecodeRoundTrip : Prop :=
  ∀ (op : Opcode) (i : Instr), decodeWord op = .ok i → encode i = op

/-- The decoder accepts exactly the words that some row of the opcode map selects, as an instruction of that row; and no word is
selected by two rows (R95, R103). -/
def Obligations.DecoderFollowsOpcodeMap : Prop :=
  (∀ op i, decodeWord op = .ok i → op &&& maskOf i = matchOf i) ∧
  (∀ op i, op &&& maskOf i = matchOf i → ∃ j, decodeWord op = .ok j ∧ matchOf j = matchOf i) ∧
  (∀ op i j, op &&& maskOf i = matchOf i → op &&& maskOf j = matchOf j → matchOf i = matchOf j)

/-- The illegal words. In family 0 every word but two is illegal, in 5 and 9 every word with a trailing nibble that is not 0; in
family 8 the low nibble and in families E and F the whole low byte must match a sub-opcode exactly, and the register fields are
free (R96, R97, R98). -/
def Obligations.IllegalWordsAreRejected : Prop :=
  (∀ op, fieldN3 op = 0x0#4 → decodeWord op =
    if op = 0x00E0#16 then .ok .cls else if op = 0x00EE#16 then .ok .ret else .error .family0) ∧
  (∀ op, fieldN3 op = 0x5#4 → decodeWord op =
    if op &&& 0xF00F#16 = 0x5000#16 then .ok (.seReg (fieldX op) (fieldY op)) else .error .family5) ∧
  (∀ op, fieldN3 op = 0x9#4 → decodeWord op =
    if op &&& 0xF00F#16 = 0x9000#16 then .ok (.sneReg (fieldX op) (fieldY op)) else .error .family9) ∧
  (∀ op, fieldN3 op = 0x8#4 →
    (decodeWord op = .error .family8 ↔ fieldN0 op ∉ [0x0#4, 0x1#4, 0x2#4, 0x3#4, 0x4#4, 0x5#4, 0x6#4, 0x7#4, 0xE#4])) ∧
  (∀ op, fieldN3 op = 0xE#4 → (decodeWord op = .error .familyE ↔ fieldKk op ∉ [0x9E#8, 0xA1#8])) ∧
  (∀ op, fieldN3 op = 0xF#4 →
    (decodeWord op = .error .familyF ↔
      fieldKk op ∉ [0x07#8, 0x0A#8, 0x15#8, 0x18#8, 0x1E#8, 0x29#8, 0x33#8, 0x55#8, 0x65#8])) ∧
  decodeWord 0x0000#16 = .error .family0 ∧ decodeWord 0xE19F#16 = .error .familyE ∧
  decodeWord 0xF000#16 = .error .familyF ∧ decodeWord 0xF175#16 = .error .familyF ∧
  decodeWord 0x8128#16 = .error .family8

/-- One word of each family, written out from the patterns of R103, and its instruction. -/
def Obligations.DecodeKnownWords : Prop :=
  decodeWord 0x00E0#16 = .ok .cls ∧ decodeWord 0x1204#16 = .ok (.jp 0x204) ∧ decodeWord 0x220A#16 = .ok (.call 0x20A) ∧
  decodeWord 0x3F01#16 = .ok (.seImm 15 1) ∧ decodeWord 0x4A10#16 = .ok (.sneImm 10 0x10) ∧
  decodeWord 0x5120#16 = .ok (.seReg 1 2) ∧ decodeWord 0x6A2F#16 = .ok (.ldImm 10 0x2F) ∧
  decodeWord 0x700A#16 = .ok (.addImm 0 10) ∧ decodeWord 0x812E#16 = .ok (.shl 1 2) ∧
  decodeWord 0x9330#16 = .ok (.sneReg 3 3) ∧ decodeWord 0xA300#16 = .ok (.ldI 0x300) ∧
  decodeWord 0xBFFF#16 = .ok (.jpV0 0xFFF) ∧ decodeWord 0xC30F#16 = .ok (.rnd 3 0x0F) ∧
  decodeWord 0xD7A9#16 = .ok (.drw 7 10 9) ∧ decodeWord 0xEAA1#16 = .ok (.sknp 10) ∧
  decodeWord 0xFA65#16 = .ok (.loadRegs 10)

/-! ### Memory, stack and reset (spec/10_state.md, spec/20_memory.md) -/

/-- `MemWrite` and `MemRead`: the range rule on the whole access, also for no byte at all; what is written is read back; every
other byte, and all the rest of the state, is as before (R63, R64, R65). -/
def Obligations.MemoryReadAfterWrite : Prop :=
  ∀ (s : State) (a : Nat) (bytes : List Byte), Memory.wf s.params.font s.mem →
    (4096 < a + bytes.length → s.memWrite a bytes = none ∧ s.memRead a bytes.length = none) ∧
    (a + bytes.length ≤ 4096 → ∃ t, s.memWrite a bytes = some t ∧ t.memRead a bytes.length = some bytes ∧
      (∀ b, ¬(a ≤ b ∧ b < a + bytes.length) → t.readByte b = s.readByte b) ∧
      { t with mem := s.mem } = s)

/-- Two memories in canonical form that read alike at every address are equal: the form is one (log entry 11). -/
def Obligations.CanonicalMemoriesAreEqual : Prop :=
  ∀ (font : Font) (m n : Memory), Memory.wf font m → Memory.wf font n →
    (∀ a, Memory.get font m a = Memory.get font n a) → m = n

/-- `Push` and `Pop`: the sixteenth push succeeds and the seventeenth does not, a pop answers the entry pushed last and restores
the stack, a pop of the empty stack does not succeed, and nothing but the stack changes (R39). -/
def Obligations.PushThenPop : Prop :=
  ∀ (s : State) (a : Addr), s.sp ≤ 16 →
    (s.sp = 16 → s.push a = none) ∧ (s.sp = 0 → s.pop = none) ∧
    (s.sp < 16 → ∃ t, s.push a = some t ∧ t.sp = s.sp + 1 ∧ t.stackEntry s.sp = some a ∧
      (∀ j, j < s.sp → t.stackEntry j = s.stackEntry j) ∧ t.pop = some (a, s))

/-- A machine at its start has the values of R50's table, for any parameters of the instance and any host (R50, R251). -/
def Obligations.ResetValues : Prop := ∀ s : State, s.Start → HasResetValues s

/-- The event `Reset` sets every piece of state to its value after reset, whatever the state was before, halted or not; both
reference times become the time of the reset (R50, R250). -/
def Obligations.ResetFromAnyState : Prop :=
  ∀ (s : State) (now : Time), s.nextEvent = some (.reset now) →
    ∃ t, step s = .next t ∧ HasResetValues t ∧ t.tExecRef = now ∧ t.tTickRef = now

/-- `LoadRom`: up to 3584 bytes are placed verbatim at 0x200 and nothing else changes; a longer image is refused (R79). -/
def Obligations.LoadRomPlacesBytes : Prop :=
  ∀ (s : State) (bytes : List Byte), Memory.wf s.params.font s.mem →
    (3584 < bytes.length → perform (.loadRom bytes) s = .refused .romTooLong) ∧
    (bytes.length ≤ 3584 → ∃ t, perform (.loadRom bytes) s = .next t ∧
      (∀ j, j < bytes.length → some (t.readByte (0x200 + j)) = bytes[j]?) ∧
      (∀ b, ¬(0x200 ≤ b ∧ b < 0x200 + bytes.length) → t.readByte b = s.readByte b) ∧
      { t with mem := s.mem } = s)

/-- `KeyDown(k)` and `KeyUp(k)` set key `k` and nothing else; a key already so changes nothing (R239). -/
def Obligations.KeyEdgesSetOneKey : Prop :=
  ∀ (s : State) (k : KeyId) (down : Bool),
    ∃ t, perform (if down then .keyDown k.val else .keyUp k.val) s = .next t ∧
      t.key k = down ∧ (∀ j, j ≠ k → t.key j = s.key j) ∧ { t with keys := s.keys } = s ∧ (s.key k = down → t = s)

/-! ### The step (spec/40_step_cycle.md, spec/60_exceptions.md) -/

/-- When the bytes at `pc` decode to `i`, a `Step` that may execute is `exec` of `i` in the state with the step's arguments, then
the tick unless the instruction faulted (R122, R126, R129). -/
def Obligations.StepRunsDecodedInstruction : Prop :=
  ∀ (s : State) (args : StepArgs) (op : Opcode) (i : Instr),
    s.nextEvent = some (.step args) → s.halted = false → { s with args := args }.execDue = true →
    s.fetch = some op → decodeWord op = .ok i →
    step s = mapNext (fun t => if t.halted then t else t.markExecuted.tick) (exec i { s.consume with args := args })

/-- A `Step` of a halted core changes nothing of the core and no output; only `Reset` leaves the halted state; key edges still set
their key (R123). -/
def Obligations.HaltedUntilReset : Prop :=
  (∀ (s : State) (args : StepArgs), s.halted = true → s.nextEvent = some (.step args) →
    step s = .next { s.consume with args := args } ∧ { s.consume with args := args }.output = s.output) ∧
  (∀ s t, s.halted = true → step s = .next t → t.halted = false → ∃ now, s.nextEvent = some (.reset now)) ∧
  (∀ (s : State) (k : KeyId), s.halted = true →
    (∃ t, perform (.keyDown k.val) s = .next t ∧ t.key k = true) ∧
    (∃ t, perform (.keyUp k.val) s = .next t ∧ t.key k = false))

/-- A rate-limited `Step` executes nothing, changes no register, leaves `pc` and `waiting`, and still ticks the timers (R124, R130). -/
def Obligations.RateLimitedStepOnlyTicks : Prop :=
  ∀ (s : State) (tickDue : Bool) (rnd : Byte),
    s.nextEvent = some (.step { due := .flags false tickDue, rnd := rnd }) → s.halted = false →
    ∃ t, step s = .next t ∧
      t = { s.consume with args := { due := .flags false tickDue, rnd := rnd }, dt := t.dt, st := t.st } ∧
      t.dt.toNat = (if tickDue then s.dt.toNat - 1 else s.dt.toNat) ∧
      t.st.toNat = (if tickDue then s.st.toNat - 1 else s.st.toNat)

/-- The tick: both timers fall by exactly 1, never below 0, when `tick_due` is true; nothing else changes but the reference time of
the timers (R236). -/
def Obligations.TickCountsBothTimersDown : Prop :=
  ∀ s : State,
    (s.tickDue = true → s.tick.dt.toNat = max (s.dt.toNat - 1) 0 ∧ s.tick.st.toNat = max (s.st.toNat - 1) 0 ∧
      { s.tick with dt := s.dt, st := s.st, tTickRef := s.tTickRef } = s) ∧
    (s.tickDue = false → s.tick = s)

/-- Ticks in a row: after `n` of them a timer has fallen by `n`, and stays at 0 once it is there (R235, R262). -/
def Obligations.TimersReachZero : Prop :=
  ∀ (n : Nat) (s : State) (execDue : Bool), s.args.due = .flags execDue true →
    ((State.tick)^[n] s).dt.toNat = s.dt.toNat - n ∧ ((State.tick)^[n] s).st.toNat = s.st.toNat - n

/-- The tick comes after the instruction: `Fx07` reads `DT` before this step's tick, and a value written by `Fx15` or `Fx18` is
decremented by the tick of the same step (R129). -/
def Obligations.TickComesAfterInstruction : Prop :=
  ∀ (s : State) (op : Opcode) (x : Reg), s.halted = false → s.execDue = true → s.tickDue = true → s.fetch = some op →
    (decodeWord op = .ok (.ldVxDt x) → ∃ t, cycle s = .next t ∧ t.readV x = s.dt ∧ t.dt.toNat = s.dt.toNat - 1) ∧
    (decodeWord op = .ok (.ldDtVx x) →
      ∃ t, cycle s = .next t ∧ t.dt.toNat = (s.readV x).toNat - 1 ∧ t.st.toNat = s.st.toNat - 1) ∧
    (decodeWord op = .ok (.ldStVx x) →
      ∃ t, cycle s = .next t ∧ t.st.toNat = (s.readV x).toNat - 1 ∧ t.dt.toNat = s.dt.toNat - 1)

/-- The timed refinement: a `Step` with a time stamp does what the Boolean `Step` does with `exec_due` and `tick_due` computed from
the reference times, and sets the references when an instruction is executed and when the timers are decremented; `Reset` sets
both to its own time. Time is in units of one sixtieth of a nanosecond, so that `T_TICK` is exact (log entry 8) (R238). -/
def Obligations.TimedStepRefinesBooleanStep : Prop :=
  (∀ (s : State) (now : Time), ∃ t, perform (.reset now) s = .next t ∧ t.tExecRef = now ∧ t.tTickRef = now) ∧
  ∀ (s : State) (now : Time) (rnd : Byte),
    ∃ t u, perform (.step ⟨.clock now, rnd⟩) s = .next t ∧
      perform (.step ⟨.flags (decide (s.tExecRef + Config.tExec ≤ now)) (decide (s.tTickRef + Config.tTick ≤ now)), rnd⟩) s =
        .next u ∧
      { t with args := u.args, tExecRef := u.tExecRef, tTickRef := u.tTickRef } = u ∧
      t.tExecRef = (if t.halted = false ∧ s.tExecRef + Config.tExec ≤ now then now else s.tExecRef) ∧
      t.tTickRef = (if t.halted = false ∧ s.tTickRef + Config.tTick ≤ now then now else s.tTickRef)

/-- Every `Step` event ends in a next state, in every state (R133). The other clauses rest on the model's own form: a transition is
refused exactly when the script gives an event the host must not issue, so never in what the host does freely (log entry 14, after
R79, U19 and U20); and none ends in a fault outcome, as a fault is a next state whose core is halted (log entry 12). -/
def Obligations.EveryStepAnswers : Prop :=
  (∀ (s : State) (args : StepArgs), s.nextEvent = some (.step args) → ∃ t, step s = .next t) ∧
  (∀ s : State, (∃ r, step s = .refused r) ↔ ∃ e rest, s.script = e :: rest ∧ e.wellFormed = false) ∧
  (∀ (s : State) (f : Fault), step s ≠ .fault f)

/-- A fetch reads the word at `pc`, the byte at the lower address the more significant, at any address up to 0xFFE, odd or even;
with `pc >= 0xFFF` it halts the core with MEM_RANGE and `fault_addr = fault_pc = pc`, and nothing else changes. `fault_opcode` is a
free value then, and nothing is said of it (R67, R125). -/
def Obligations.FetchReadsBigEndianOrFaults : Prop :=
  (∀ s : State, s.pc.toNat ≤ 0xFFE → ∃ op, s.fetch = some op ∧
    op.toNat = (s.readByte s.pc.toNat).toNat * 256 + (s.readByte (s.pc.toNat + 1)).toNat) ∧
  ∀ (s : State) (args : StepArgs), s.nextEvent = some (.step args) → s.halted = false →
    { s with args := args }.execDue = true → 0xFFF ≤ s.pc.toNat →
    ∃ t, step s = .next t ∧ t.halted = true ∧ t.faultRecord.cause = some .memRange ∧ t.faultRecord.pc = s.pc ∧
      t.faultRecord.addr = s.pc ∧
      { t with halted := s.halted, faultRecord := s.faultRecord } = { s.consume with args := args }

/-- An illegal word halts the core with DECODE_ERROR, the word and its address, when it would execute; nothing else changes (R222). -/
def Obligations.IllegalWordFaults : Prop :=
  ∀ (s : State) (args : StepArgs) (op : Opcode) (r : Reject), s.nextEvent = some (.step args) → s.halted = false →
    { s with args := args }.execDue = true → s.fetch = some op → decodeWord op = .error r →
    ∃ t, step s = .next t ∧ t.halted = true ∧ t.faultRecord.cause = some .decodeError ∧ t.faultRecord.pc = s.pc ∧
      t.faultRecord.opcode = op ∧
      { t with halted := s.halted, faultRecord := s.faultRecord } = { s.consume with args := args }

/-- A step that faults commits nothing: no register, memory byte, pixel, stack entry, timer, `pc` or `waiting` changes and there is
no tick; the record names the address and, where one was fetched, the word (R132, R224, R226). -/
def Obligations.FaultingStepCommitsNothing : Prop :=
  ∀ s t : State, step s = .next t → s.halted = false → t.halted = true →
    { t with halted := s.halted, faultRecord := s.faultRecord } = { s.consume with args := t.args } ∧
    t.faultRecord.cause ≠ none ∧ t.faultRecord.pc = s.pc ∧ t.pc = s.pc ∧
    (∀ op, s.fetch = some op → t.faultRecord.opcode = op)

/-- The codes of the causes, and for every instruction: it takes the fault R221's table gives it, with the `fault_addr` the table
names, exactly when the table's condition holds, and else leaves `halted` and the record (R220, R221). -/
def Obligations.InstructionsFaultExactlyWhen : Prop :=
  (Fault.decodeError.code = 1#3 ∧ Fault.stackOverflow.code = 2#3 ∧ Fault.stackUnderflow.code = 3#3 ∧
    Fault.memRange.code = 4#3 ∧ Fault.keyRange.code = 5#3 ∧ Fault.digitRange.code = 6#3) ∧
  ∀ (i : Instr) (s : State),
    (∀ c info, faultOf i s = some (c, info) → exec i s = .next (s.enterFault c (encode i) info)) ∧
    (faultOf i s = none → ∃ t, exec i s = .next t ∧ t.halted = s.halted ∧ t.faultRecord = s.faultRecord)

/-- Fault entry sets `halted`, the cause, `fault_pc` and `fault_opcode`, and `fault_addr` where one is given; nothing else changes
(R224). -/
def Obligations.FaultEntryWritesRecordOnly : Prop :=
  ∀ (s : State) (c : Fault) (op : Opcode) (info : Option Addr),
    (s.enterFault c op info).halted = true ∧ (s.enterFault c op info).faultRecord.cause = some c ∧
    (s.enterFault c op info).faultRecord.pc = s.pc ∧ (s.enterFault c op info).faultRecord.opcode = op ∧
    (∀ a, info = some a → (s.enterFault c op info).faultRecord.addr = a) ∧
    (info = none → (s.enterFault c op info).faultRecord.addr = s.faultRecord.addr) ∧
    { s.enterFault c op info with halted := s.halted, faultRecord := s.faultRecord } = s

/-- The control effect of every instruction. JUMP: `00EE` sets `pc` to the stack's newest entry, `1nnn` and `2nnn` to `nnn`, `Bnnn`
to `nnn + V0`; SKIP or NEXT: the six skips move `pc` by 4 or by 2; WAIT or NEXT: only `Fx0A` waits, exactly when no key is pressed,
and then leaves `pc`; NEXT: every other instruction moves `pc` by 2 (R128, R131). -/
def Obligations.ControlEffectOfEveryInstruction : Prop :=
  ∀ (i : Instr) (s t : State), faultOf i s = none → exec i s = .next t →
    (t.waiting = true ↔ (∃ x, i = .ldVxKey x) ∧ ∀ k, s.key k = false) ∧
    (t.waiting = true → t.pc = s.pc) ∧
    (t.waiting = false →
      match i with
      | .ret => some t.pc = s.stackEntry (s.sp - 1)
      | .jp nnn | .call nnn => t.pc = zextNnn nnn
      | .jpV0 nnn => t.pc = zextNnn nnn + zextByte (s.readV 0)
      | .seImm _ _ | .sneImm _ _ | .seReg _ _ | .sneReg _ _ | .skp _ | .sknp _ =>
        t.pc = s.pc + 2#16 ∨ t.pc = s.pc + 4#16
      | _ => t.pc = s.pc + 2#16)

/-- What every instruction leaves alone: an effect that the table of R49 does not list does not happen (R10, R49). -/
def Obligations.FrameOfEveryInstruction : Prop :=
  ∀ (i : Instr) (s t : State), Memory.wf s.params.font s.mem → faultOf i s = none → exec i s = .next t →
    Unchanged (footprintOf i s) s t

/-- VF as the flag: the six instructions that write it as a flag leave 0x00 or 0x01 in it, and every other instruction leaves it
alone unless its `x` field is F (R32). -/
def Obligations.OnlySixInstructionsWriteTheFlag : Prop :=
  ∀ (i : Instr) (s t : State), faultOf i s = none → exec i s = .next t →
    match i with
    | .addReg _ _ | .subReg _ _ | .shr _ _ | .subnReg _ _ | .shl _ _ | .drw _ _ _ => t.readV vf = 0#8 ∨ t.readV vf = 1#8
    | .ldImm x _ | .addImm x _ | .ldReg x _ | .orReg x _ | .andReg x _ | .xorReg x _ | .rnd x _ | .ldVxDt x | .ldVxKey x
    | .loadRegs x => x ≠ vf → t.readV vf = s.readV vf
    | _ => t.readV vf = s.readV vf

/-! ### Control transfer (spec/41_flow.md) -/

/-- `00EE`: the entry pushed last becomes `pc` and `sp` falls by 1; with an empty stack, STACK_UNDERFLOW (R141). -/
def Obligations.ReturnPopsTheStack : Prop :=
  Encodes 0xFFFF#16 0x00EE#16 (fun _ => .ret) ∧
  ∀ s : State,
    (0 < s.sp → ∃ t, exec .ret s = .next t ∧ some t.pc = s.stackEntry (s.sp - 1) ∧ t.sp = s.sp - 1 ∧
      (∀ j, j < t.sp → t.stackEntry j = s.stackEntry j) ∧ t.waiting = false ∧ Unchanged { stack := true } s t) ∧
    (s.sp = 0 → exec .ret s = .next (s.enterFault .stackUnderflow 0x00EE#16 none))

/-- `1nnn` and `Bnnn`: `pc` becomes `nnn`, or `nnn + V0` as a natural number, not reduced modulo 4096; nothing else changes (R142,
R144). -/
def Obligations.JumpsSetThePc : Prop :=
  Encodes 0xF000#16 0x1000#16 (fun op => .jp (fieldNnn op)) ∧
  Encodes 0xF000#16 0xB000#16 (fun op => .jpV0 (fieldNnn op)) ∧
  ∀ (nnn : BitVec 12) (s : State),
    (∃ t, exec (.jp nnn) s = .next t ∧ t.pc.toNat = nnn.toNat ∧ t.waiting = false ∧ Unchanged {} s t) ∧
    (∃ t, exec (.jpV0 nnn) s = .next t ∧ t.pc.toNat = nnn.toNat + (s.readV 0).toNat ∧ t.waiting = false ∧
      Unchanged {} s t)

/-- `2nnn`: the address of the next instruction is pushed and `pc` becomes `nnn`; with 16 entries, STACK_OVERFLOW (R143). -/
def Obligations.CallPushesTheReturnAddress : Prop :=
  Encodes 0xF000#16 0x2000#16 (fun op => .call (fieldNnn op)) ∧
  ∀ (nnn : BitVec 12) (s : State), s.sp ≤ 16 →
    (s.sp < 16 → ∃ t, exec (.call nnn) s = .next t ∧ t.pc.toNat = nnn.toNat ∧ t.sp = s.sp + 1 ∧
      t.stackEntry s.sp = some (s.pc + 2#16) ∧ (∀ j, j < s.sp → t.stackEntry j = s.stackEntry j) ∧
      t.waiting = false ∧ Unchanged { stack := true } s t) ∧
    (s.sp = 16 → exec (.call nnn) s = .next (s.enterFault .stackOverflow (encode (.call nnn)) none))

/-! ### Skips (spec/42_skip.md) -/

/-- `3xkk`, `4xkk`, `5xy0`, `9xy0`: `pc + 4` when the condition holds and `pc + 2` when not; nothing else changes (R151 to R154). -/
def Obligations.SkipsCompareForEquality : Prop :=
  Encodes 0xF000#16 0x3000#16 (fun op => .seImm (fieldX op) (fieldKk op)) ∧
  Encodes 0xF000#16 0x4000#16 (fun op => .sneImm (fieldX op) (fieldKk op)) ∧
  Encodes 0xF00F#16 0x5000#16 (fun op => .seReg (fieldX op) (fieldY op)) ∧
  Encodes 0xF00F#16 0x9000#16 (fun op => .sneReg (fieldX op) (fieldY op)) ∧
  ∀ (x y : Reg) (kk : Byte) (s : State),
    exec (.seImm x kk) s = .next { s with pc := s.pc + (if s.readV x = kk then 4#16 else 2#16), waiting := false } ∧
    exec (.sneImm x kk) s = .next { s with pc := s.pc + (if s.readV x = kk then 2#16 else 4#16), waiting := false } ∧
    exec (.seReg x y) s = .next { s with pc := s.pc + (if s.readV x = s.readV y then 4#16 else 2#16), waiting := false } ∧
    exec (.sneReg x y) s = .next { s with pc := s.pc + (if s.readV x = s.readV y then 2#16 else 4#16), waiting := false }

/-! ### Arithmetic, logic, shift and random (spec/43_alu.md) -/

/-- `6xkk` and `7xkk`: `Vx` becomes `kk`, or `Vx + kk` modulo 256 with no carry recorded anywhere (R161, R162). -/
def Obligations.ImmediateLoadAndAdd : Prop :=
  Encodes 0xF000#16 0x6000#16 (fun op => .ldImm (fieldX op) (fieldKk op)) ∧
  Encodes 0xF000#16 0x7000#16 (fun op => .addImm (fieldX op) (fieldKk op)) ∧
  ∀ (x : Reg) (kk : Byte) (s : State),
    (∃ t, exec (.ldImm x kk) s = .next t ∧ t.readV x = kk ∧ t.pc = s.pc + 2#16 ∧ t.waiting = false ∧
      Unchanged { regs := [x] } s t) ∧
    (∃ t, exec (.addImm x kk) s = .next t ∧ (t.readV x).toNat = ((s.readV x).toNat + kk.toNat) % 256 ∧
      t.pc = s.pc + 2#16 ∧ t.waiting = false ∧ Unchanged { regs := [x] } s t)

/-- `8xy0` to `8xy3`: copy, and the logic operations on each of the 8 bits; VF is written only as an ordinary destination (R163 to
R166). -/
def Obligations.CopyAndLogic : Prop :=
  Encodes 0xF00F#16 0x8000#16 (fun op => .ldReg (fieldX op) (fieldY op)) ∧
  Encodes 0xF00F#16 0x8001#16 (fun op => .orReg (fieldX op) (fieldY op)) ∧
  Encodes 0xF00F#16 0x8002#16 (fun op => .andReg (fieldX op) (fieldY op)) ∧
  Encodes 0xF00F#16 0x8003#16 (fun op => .xorReg (fieldX op) (fieldY op)) ∧
  ∀ (x y : Reg) (s : State),
    (∃ t, exec (.ldReg x y) s = .next t ∧ t.readV x = s.readV y ∧ t.pc = s.pc + 2#16 ∧ t.waiting = false ∧
      Unchanged { regs := [x] } s t) ∧
    (∃ t, exec (.orReg x y) s = .next t ∧
      (∀ b, (t.readV x).getLsbD b = ((s.readV x).getLsbD b || (s.readV y).getLsbD b)) ∧
      t.pc = s.pc + 2#16 ∧ t.waiting = false ∧ Unchanged { regs := [x] } s t) ∧
    (∃ t, exec (.andReg x y) s = .next t ∧
      (∀ b, (t.readV x).getLsbD b = ((s.readV x).getLsbD b && (s.readV y).getLsbD b)) ∧
      t.pc = s.pc + 2#16 ∧ t.waiting = false ∧ Unchanged { regs := [x] } s t) ∧
    (∃ t, exec (.xorReg x y) s = .next t ∧
      (∀ b, (t.readV x).getLsbD b = ((s.readV x).getLsbD b ^^ (s.readV y).getLsbD b)) ∧
      t.pc = s.pc + 2#16 ∧ t.waiting = false ∧ Unchanged { regs := [x] } s t)

/-- `8xy4`: `Vx` becomes the sum modulo 256 and VF, written last, the carry; with `x` = F the sum is lost (R33, R167). -/
def Obligations.AddSetsCarry : Prop :=
  Encodes 0xF00F#16 0x8004#16 (fun op => .addReg (fieldX op) (fieldY op)) ∧
  ∀ (x y : Reg) (s : State), ∃ t, exec (.addReg x y) s = .next t ∧
    (x ≠ vf → (t.readV x).toNat = ((s.readV x).toNat + (s.readV y).toNat) % 256) ∧
    t.readV vf = (if 255 < (s.readV x).toNat + (s.readV y).toNat then 1#8 else 0#8) ∧
    t.pc = s.pc + 2#16 ∧ t.waiting = false ∧ Unchanged { regs := [x, vf] } s t

/-- `8xy5` and `8xy7`: `Vx` becomes the difference `a - b`, plus 256 on a borrow, and VF, written last, the not-borrow; the
shift-source parameter plays no part (R168, R170). -/
def Obligations.SubtractionsSetNotBorrow : Prop :=
  Encodes 0xF00F#16 0x8005#16 (fun op => .subReg (fieldX op) (fieldY op)) ∧
  Encodes 0xF00F#16 0x8007#16 (fun op => .subnReg (fieldX op) (fieldY op)) ∧
  ∀ (x y : Reg) (s : State),
    (∃ t, exec (.subReg x y) s = .next t ∧
      (x ≠ vf → (t.readV x).toNat =
        (if (s.readV y).toNat ≤ (s.readV x).toNat then (s.readV x).toNat - (s.readV y).toNat
         else (s.readV x).toNat + 256 - (s.readV y).toNat)) ∧
      t.readV vf = (if (s.readV y).toNat ≤ (s.readV x).toNat then 1#8 else 0#8) ∧
      t.pc = s.pc + 2#16 ∧ t.waiting = false ∧ Unchanged { regs := [x, vf] } s t) ∧
    (∃ t, exec (.subnReg x y) s = .next t ∧
      (x ≠ vf → (t.readV x).toNat =
        (if (s.readV x).toNat ≤ (s.readV y).toNat then (s.readV y).toNat - (s.readV x).toNat
         else (s.readV y).toNat + 256 - (s.readV x).toNat)) ∧
      t.readV vf = (if (s.readV x).toNat ≤ (s.readV y).toNat then 1#8 else 0#8) ∧
      t.pc = s.pc + 2#16 ∧ t.waiting = false ∧ Unchanged { regs := [x, vf] } s t)

/-- `8xy6` and `8xyE`: the operand is `Vy`, or `Vx` under the parameter; it moves by one place with 0 filled in, and VF, written
last, is the bit shifted out (R169, R171, R173). -/
def Obligations.ShiftsByOnePlace : Prop :=
  Encodes 0xF00F#16 0x8006#16 (fun op => .shr (fieldX op) (fieldY op)) ∧
  Encodes 0xF00F#16 0x800E#16 (fun op => .shl (fieldX op) (fieldY op)) ∧
  ∀ (x y : Reg) (s : State) (a : Byte),
    a = (if s.params.shiftSrc = .vy then s.readV y else s.readV x) →
    (∃ t, exec (.shr x y) s = .next t ∧ (x ≠ vf → (t.readV x).toNat = a.toNat / 2) ∧
      (t.readV vf).toNat = a.toNat % 2 ∧ t.pc = s.pc + 2#16 ∧ t.waiting = false ∧ Unchanged { regs := [x, vf] } s t) ∧
    (∃ t, exec (.shl x y) s = .next t ∧ (x ≠ vf → (t.readV x).toNat = 2 * a.toNat % 256) ∧
      (t.readV vf).toNat = a.toNat / 128 ∧ t.pc = s.pc + 2#16 ∧ t.waiting = false ∧ Unchanged { regs := [x, vf] } s t)

/-- `Cxkk`: `Vx` becomes the step's random byte, whatever it is, masked with `kk`: no bit is set that `kk` lacks (R172). -/
def Obligations.RandomByteIsMasked : Prop :=
  Encodes 0xF000#16 0xC000#16 (fun op => .rnd (fieldX op) (fieldKk op)) ∧
  ∀ (x : Reg) (kk : Byte) (s : State), ∃ t, exec (.rnd x kk) s = .next t ∧
    (∀ b, (t.readV x).getLsbD b = (s.args.rnd.getLsbD b && kk.getLsbD b)) ∧
    t.pc = s.pc + 2#16 ∧ t.waiting = false ∧ Unchanged { regs := [x] } s t

/-! ### Index register and memory (spec/44_index_memory.md) -/

/-- `Annn` and `Fx1E`: `I` becomes `nnn`, or `I + Vx` modulo 65536 with no flag (R181, R182). -/
def Obligations.IndexLoadAndAdd : Prop :=
  Encodes 0xF000#16 0xA000#16 (fun op => .ldI (fieldNnn op)) ∧
  Encodes 0xF0FF#16 0xF01E#16 (fun op => .addI (fieldX op)) ∧
  (∀ (nnn : BitVec 12) (s : State), ∃ t, exec (.ldI nnn) s = .next t ∧ t.i.toNat = nnn.toNat ∧ t.pc = s.pc + 2#16 ∧
    t.waiting = false ∧ Unchanged { i := true } s t) ∧
  (∀ (x : Reg) (s : State), ∃ t, exec (.addI x) s = .next t ∧
    t.i.toNat = (s.i.toNat + (s.readV x).toNat) % 65536 ∧ t.pc = s.pc + 2#16 ∧ t.waiting = false ∧
    Unchanged { i := true } s t)

/-- `Fx29`: for a digit, `I` becomes `5 * Vx`; for a larger byte, DIGIT_RANGE with the byte as `fault_addr` (R183). -/
def Obligations.GlyphAddressOfDigit : Prop :=
  Encodes 0xF0FF#16 0xF029#16 (fun op => .ldFont (fieldX op)) ∧
  ∀ (x : Reg) (s : State),
    ((s.readV x).toNat ≤ 15 → ∃ t, exec (.ldFont x) s = .next t ∧ t.i.toNat = 5 * (s.readV x).toNat ∧
      t.pc = s.pc + 2#16 ∧ t.waiting = false ∧ Unchanged { i := true } s t) ∧
    (15 < (s.readV x).toNat →
      exec (.ldFont x) s = .next (s.enterFault .digitRange (encode (.ldFont x)) (some (zextByte (s.readV x)))))

/-- `Fx33`: the three decimal digits of `Vx` go to `I`, `I+1`, `I+2`, and every other byte is as before; MEM_RANGE when
`I + 3 > 4096` (R184). -/
def Obligations.BcdStoresThreeDigits : Prop :=
  Encodes 0xF0FF#16 0xF033#16 (fun op => .ldBcd (fieldX op)) ∧
  ∀ (x : Reg) (s : State), Memory.wf s.params.font s.mem →
    (s.i.toNat + 3 ≤ 4096 → ∃ t, exec (.ldBcd x) s = .next t ∧
      (t.readByte s.i.toNat).toNat = (s.readV x).toNat / 100 ∧
      (t.readByte (s.i.toNat + 1)).toNat = (s.readV x).toNat / 10 % 10 ∧
      (t.readByte (s.i.toNat + 2)).toNat = (s.readV x).toNat % 10 ∧
      t.pc = s.pc + 2#16 ∧ t.waiting = false ∧ Unchanged { stored := (s.i.toNat, 3) } s t) ∧
    (4096 < s.i.toNat + 3 → exec (.ldBcd x) s = .next (s.enterFault .memRange (encode (.ldBcd x)) (some s.i)))

/-- `Fx55`: `V0` to `Vx` go to `I` to `I+x`, and every other byte is as before; MEM_RANGE when `I + x + 1 > 4096` (R186). -/
def Obligations.StoreRegistersThroughVx : Prop :=
  Encodes 0xF0FF#16 0xF055#16 (fun op => .storeRegs (fieldX op)) ∧
  ∀ (x : Reg) (s : State), Memory.wf s.params.font s.mem →
    (s.i.toNat + x.val + 1 ≤ 4096 → ∃ t, exec (.storeRegs x) s = .next t ∧
      (∀ j : Reg, j ≤ x → t.readByte (s.i.toNat + j.val) = s.readV j) ∧
      t.pc = s.pc + 2#16 ∧ t.waiting = false ∧ Unchanged { stored := (s.i.toNat, x.val + 1) } s t) ∧
    (4096 < s.i.toNat + x.val + 1 →
      exec (.storeRegs x) s = .next (s.enterFault .memRange (encode (.storeRegs x)) (some s.i)))

/-- `Fx65`: `I` to `I+x` go to `V0` to `Vx`, and the registers above are as before; MEM_RANGE when `I + x + 1 > 4096` (R187). -/
def Obligations.LoadRegistersThroughVx : Prop :=
  Encodes 0xF0FF#16 0xF065#16 (fun op => .loadRegs (fieldX op)) ∧
  ∀ (x : Reg) (s : State),
    (s.i.toNat + x.val + 1 ≤ 4096 → ∃ t, exec (.loadRegs x) s = .next t ∧
      (∀ j : Reg, j ≤ x → t.readV j = s.readByte (s.i.toNat + j.val)) ∧
      t.pc = s.pc + 2#16 ∧ t.waiting = false ∧ Unchanged { regs := regsThrough x } s t) ∧
    (4096 < s.i.toNat + x.val + 1 →
      exec (.loadRegs x) s = .next (s.enterFault .memRange (encode (.loadRegs x)) (some s.i)))

/-- A byte stored is seen by the very next fetch: after `Fx55` or `Fx33` with `I` the address of the next instruction, the next
word fetched is made of the first two bytes stored (R77). -/
def Obligations.SelfModifyingCodeIsFetched : Prop :=
  ∀ (x : Reg) (s t : State), Memory.wf s.params.font s.mem → s.i = s.pc + 2#16 → s.pc.toNat ≤ 0xFFE →
    (exec (.storeRegs x) s = .next t → 1 ≤ x.val → s.i.toNat + x.val + 1 ≤ 4096 →
      t.fetch = some (wordOfBytes (s.readV 0) (s.readV 1))) ∧
    (exec (.ldBcd x) s = .next t → s.i.toNat + 3 ≤ 4096 →
      t.fetch = some (wordOfBytes (BitVec.ofNat 8 ((s.readV x).toNat / 100)) (BitVec.ofNat 8 ((s.readV x).toNat / 10 % 10))))

/-! ### Display (spec/45_display.md) -/

/-- `00E0`: every pixel is off and nothing else changes (R191). -/
def Obligations.ClearDisplay : Prop :=
  Encodes 0xFFFF#16 0x00E0#16 (fun _ => .cls) ∧
  ∀ s : State, ∃ t, exec .cls s = .next t ∧ (∀ c r, t.display.pixel c r = false) ∧ t.pc = s.pc + 2#16 ∧
    t.waiting = false ∧ Unchanged { display := true } s t

/-- `Dxyn`: each pixel of the grid is inverted exactly when a 1 bit of the sprite targets it, bits outside the grid are dropped
without wrapping, and VF is 1 exactly when some inverted pixel was on; MEM_RANGE, with nothing drawn, when `I + n > 4096`. This
is the pixel by pixel meaning of R192's loop (R192 to R195). -/
def Obligations.DrawSpriteInvertsCoveredPixels : Prop :=
  Encodes 0xF000#16 0xD000#16 (fun op => .drw (fieldX op) (fieldY op) (fieldN op)) ∧
  ∀ (x y : Reg) (n : Fin 16) (s : State),
    (s.i.toNat + n.val ≤ 4096 → ∃ t rows, exec (.drw x y n) s = .next t ∧
      rows = (List.range n.val).map (fun j => s.readByte (s.i.toNat + j)) ∧
      (∀ c r, c < 64 → r < 32 → t.display.pixel c r =
        (s.display.pixel c r ^^ spriteCovers rows (s.readV x).toNat (s.readV y).toNat c r)) ∧
      (t.readV vf = 0#8 ∨ t.readV vf = 1#8) ∧
      (t.readV vf = 1#8 ↔ ∃ c r, c < 64 ∧ r < 32 ∧ s.display.pixel c r = true ∧
        spriteCovers rows (s.readV x).toNat (s.readV y).toNat c r = true) ∧
      t.pc = s.pc + 2#16 ∧ t.waiting = false ∧ Unchanged { regs := [vf], display := true } s t) ∧
    (4096 < s.i.toNat + n.val →
      exec (.drw x y n) s = .next (s.enterFault .memRange (encode (.drw x y n)) (some s.i)))

/-- Drawing the same sprite twice at the same origin restores every pixel: on a clear display the first draw reports no collision,
and the second one exactly when some bit of the sprite equal to 1 lies inside the grid (R196). Where `x` or `y` is F the first draw
may move the origin of the second. -/
def Obligations.DrawingTwiceRestoresDisplay : Prop :=
  ∀ (x y : Reg) (n : Fin 16) (s : State) (rows : List Byte), s.i.toNat + n.val ≤ 4096 →
    rows = (List.range n.val).map (fun j => s.readByte (s.i.toNat + j)) →
    ∃ t, exec (.drw x y n) s = .next t ∧
      (t.readV x = s.readV x → t.readV y = s.readV y →
        ∃ u, exec (.drw x y n) t = .next u ∧ u.display = s.display ∧
          ((∀ c r, s.display.pixel c r = false) → t.readV vf = 0#8 ∧
            (u.readV vf = 0#8 ∨ u.readV vf = 1#8) ∧
            (u.readV vf = 1#8 ↔
              ∃ c r, c < 64 ∧ r < 32 ∧ spriteCovers rows (s.readV x).toNat (s.readV y).toNat c r = true)))

/-- The display output: bit `64*r + c` is `Pix[c][r]` (R240). -/
def Obligations.DisplayOutputIsRowMajor : Prop :=
  ∀ (s : State) (c : Fin 64) (r : Fin 32),
    s.output.display[64 * r.val + c.val]'(by omega) = s.display.pixel c.val r.val

/-! ### Keypad and timers (spec/46_keypad_timer.md) -/

/-- `Ex9E` and `ExA1`: with `Vx` a key id, the skip is taken on the level of that key; with a larger byte, KEY_RANGE (R201, R202). -/
def Obligations.SkipsOnKeyLevel : Prop :=
  Encodes 0xF0FF#16 0xE09E#16 (fun op => .skp (fieldX op)) ∧
  Encodes 0xF0FF#16 0xE0A1#16 (fun op => .sknp (fieldX op)) ∧
  ∀ (x : Reg) (s : State),
    (∀ k : KeyId, (s.readV x).toNat = k.val →
      exec (.skp x) s = .next { s with pc := s.pc + (if s.key k then 4#16 else 2#16), waiting := false } ∧
      exec (.sknp x) s = .next { s with pc := s.pc + (if s.key k then 2#16 else 4#16), waiting := false }) ∧
    (15 < (s.readV x).toNat →
      exec (.skp x) s = .next (s.enterFault .keyRange (encode (.skp x)) (some (zextByte (s.readV x)))) ∧
      exec (.sknp x) s = .next (s.enterFault .keyRange (encode (.sknp x)) (some (zextByte (s.readV x)))))

/-- `Fx0A`: with no key pressed it waits and changes nothing else; with keys pressed `Vx` becomes the lowest pressed key id and the
core goes on (R203). -/
def Obligations.KeyWaitTakesLowestKey : Prop :=
  Encodes 0xF0FF#16 0xF00A#16 (fun op => .ldVxKey (fieldX op)) ∧
  ∀ (x : Reg) (s : State),
    ((∀ k, s.key k = false) → exec (.ldVxKey x) s = .next { s with waiting := true }) ∧
    (∀ k : KeyId, s.key k = true → (∀ j < k, s.key j = false) →
      ∃ t, exec (.ldVxKey x) s = .next t ∧ (t.readV x).toNat = k.val ∧ t.pc = s.pc + 2#16 ∧ t.waiting = false ∧
        Unchanged { regs := [x] } s t)

/-- `Fx07`, `Fx15`, `Fx18`: `Vx` becomes `DT`, `DT` becomes `Vx`, `ST` becomes `Vx` (R204 to R206). -/
def Obligations.TimerTransfers : Prop :=
  Encodes 0xF0FF#16 0xF007#16 (fun op => .ldVxDt (fieldX op)) ∧
  Encodes 0xF0FF#16 0xF015#16 (fun op => .ldDtVx (fieldX op)) ∧
  Encodes 0xF0FF#16 0xF018#16 (fun op => .ldStVx (fieldX op)) ∧
  ∀ (x : Reg) (s : State),
    (∃ t, exec (.ldVxDt x) s = .next t ∧ t.readV x = s.dt ∧ t.pc = s.pc + 2#16 ∧ t.waiting = false ∧
      Unchanged { regs := [x] } s t) ∧
    (∃ t, exec (.ldDtVx x) s = .next t ∧ t.dt = s.readV x ∧ t.pc = s.pc + 2#16 ∧ t.waiting = false ∧
      Unchanged { dt := true } s t) ∧
    (∃ t, exec (.ldStVx x) s = .next t ∧ t.st = s.readV x ∧ t.pc = s.pc + 2#16 ∧ t.waiting = false ∧
      Unchanged { st := true } s t)

/-! ### Invariants and whole-machine rules -/

/-- The invariant holds of every machine right after a reset (R50). That `fault_cause` is NONE then is R221's row for code 0; the
other fields of the record, which log entry 4 chooses, are not in it. -/
def Obligations.InvariantAtReset : Prop := ∀ s : State, s.Start → Inv s

/-- Every transition keeps the invariant: memory stays in its canonical form, the stack within 16 entries that are return
addresses, `pc` at most 0x10FE, and the fault record precise (R37, R38, R226). -/
def Obligations.StepKeepsInvariant : Prop := ∀ s t : State, Inv s → step s = .next t → Inv t

/-- After a reset, whatever the host does, `pc` never exceeds 0x10FE, the call depth never 16, and a halted core's `pc` is the
address of the instruction that faulted (R37, R38, R226). -/
def Obligations.ReachableBounds : Prop :=
  ∀ s : State, Reachable s → s.pc.toNat ≤ 0x10FE ∧ s.sp ≤ 16 ∧ (s.halted = true → s.faultRecord.pc = s.pc)

/-- While `waiting` is 1 the word at `pc` is an `Fx0A`: every transition keeps this, but for a `LoadRom`, which may rewrite the
instruction (R46, R131). -/
def Obligations.WaitingStaysAtKeyWait : Prop :=
  ∀ s t : State, s.WaitsAtKeyWait → step s = .next t → (∀ bytes, s.nextEvent ≠ some (.loadRom bytes)) → t.WaitsAtKeyWait

/-- No transition changes the parameters of the instance. For `QUIRK_SHIFT_SRC` this is the spec's "fixed for the life of an
instance" (R173); that `FONT` is such a parameter beside it, held in State, is log entry 5, and that `Reset` too leaves both is log
entry 13: the model's reading. -/
def Obligations.ParametersAreFixed : Prop := ∀ s t : State, step s = .next t → t.params = s.params

/-- No instruction reads `ST`: two states that differ in `ST` alone execute alike, but for `ST` itself, and after `Fx18`, which writes
it, in `ST` too (R44, R207). -/
def Obligations.SoundTimerIsNeverRead : Prop :=
  ∀ (i : Instr) (s t : State) (b : Byte), exec i s = .next t →
    ∃ u, exec i { s with st := b } = .next u ∧ { u with st := t.st } = t ∧
      ((∃ x, i = .ldStVx x) → u.st = t.st) ∧
      ((∀ x, i ≠ .ldStVx x) → t.st = s.st ∧ u.st = b)

/-- The random byte reaches the state through `Cxkk` alone: every other instruction executes alike whatever the byte is (R134, R241). -/
def Obligations.RandomByteReachesOnlyRnd : Prop :=
  ∀ (i : Instr) (s t : State) (r : Byte), (∀ x kk, i ≠ .rnd x kk) → exec i s = .next t →
    exec i { s with args := { s.args with rnd := r } } = .next { t with args := { t.args with rnd := r } }

/-- A word stored with `withFetchWord` is the instruction the next step runs, in every state whose memory is canonical; this is the
model's own way to place an instruction (log entry 10). -/
def Obligations.StoredWordRunsNext : Prop :=
  ∀ (s : State) (op : Opcode) (i : Instr), Memory.wf s.params.font s.mem → decodeWord op = .ok i →
    ∃ args, step (s.withFetchWord 16 op.toNat) =
      mapNext State.finishExecuted (exec i { (s.withFetchWord 16 op.toNat).consume with args := args })

/-- Whether a `Step` may execute has no influence on its tick, nor the tick on the execution: with the same `exec_due`, a step whose
timers are due leaves what the step whose timers are not due leaves, but that both timers are lower by 1, never below 0; a step that
ends halted has no tick. No relation of `tick_due` to `exec_due` enters (R129, R130, R236, R237). -/
def Obligations.TickIsIndependentOfExecution : Prop :=
  ∀ (s : State) (execDue tickDue : Bool) (rnd : Byte),
    ∃ t w, perform (.step ⟨.flags execDue tickDue, rnd⟩) s = .next t ∧
      perform (.step ⟨.flags execDue false, rnd⟩) s = .next w ∧
      { t with dt := w.dt, st := w.st, args := w.args } = w ∧
      t.dt.toNat = (if tickDue && !t.halted then w.dt.toNat - 1 else w.dt.toNat) ∧
      t.st.toNat = (if tickDue && !t.halted then w.st.toNat - 1 else w.st.toNat)
end

