-- ==== Sys2Proof/Laws/Display.lean ====
section
/-! SUPPORT. The compositor: what the loop of R192 leaves in each pixel and in the collision result, said once
(spec/45_display.md R193 to R195). -/

namespace Sys2Proof.Machine

theorem Display.pixel_of_outside (d : Display) {c r : Nat} (h : ¬(c < 64 ∧ r < 32)) : d.pixel c r = false := by
  unfold Display.pixel; rw [dif_neg h]

/-- A pixel after one pixel is written. -/
theorem Display.pixel_setPixel (d : Display) (c r c' r' : Nat) (b : Bool) :
    (d.setPixel c r b).pixel c' r' = if c' = c ∧ r' = r ∧ c < 64 ∧ r < 32 then b else d.pixel c' r' := by
  unfold Display.setPixel Display.pixel
  by_cases h : c < 64 ∧ r < 32
  · by_cases h' : c' < 64 ∧ r' < 32
    · by_cases hr : r' = r
      · subst hr
        by_cases hc : c' = c
        · subst hc; simp [h]
        · simp [h, h', hc, Ne.symm hc]
      · simp [h, h', hr, Ne.symm hr]
    · have : ¬(c' = c ∧ r' = r ∧ c < 64 ∧ r < 32) := by rintro ⟨rfl, rfl, h⟩; exact h' h
      rw [dif_neg h', dif_neg h', if_neg this]
  · have : ¬(c' = c ∧ r' = r ∧ c < 64 ∧ r < 32) := fun hh => h hh.2.2
    rw [dif_neg h, if_neg this]

@[simp] theorem Display.pixel_blank (c r : Nat) : Display.blank.pixel c r = false := by
  unfold Display.pixel Display.blank; split <;> simp

/-- Displays that agree in every pixel of the grid are equal. -/
theorem Display.ext_pixel {d e : Display} (h : ∀ c r, c < 64 → r < 32 → d.pixel c r = e.pixel c r) : d = e := by
  refine Vector.ext fun r hr => Vector.ext fun c hc => ?_
  simpa [Display.pixel, hc, hr] using h c r hc hr

/-- The pixel after the first `k` bits of one row. -/
theorem pixel_drawRow_prefix (row : Byte) (x0 ty : Nat) (acc : Display × Bool) (k c r : Nat) :
    ((List.range k).foldl (drawBit row x0 ty) acc).1.pixel c r =
      (acc.1.pixel c r ^^ (decide (c < 64 ∧ r < 32 ∧ r = ty ∧ x0 ≤ c ∧ c < x0 + k) && spriteBit row (c - x0))) := by
  induction k with
  | zero =>
    have : ¬(c < 64 ∧ r < 32 ∧ r = ty ∧ x0 ≤ c ∧ c < x0 + 0) := by omega
    rw [decide_eq_false this]; simp
  | succ k ih =>
    rw [List.range_succ, List.foldl_append, List.foldl_cons, List.foldl_nil]
    generalize (List.range k).foldl (drawBit row x0 ty) acc = mid at ih
    unfold drawBit inGrid
    by_cases hg : x0 + k < Config.dispW ∧ ty < Config.dispH
    · rw [if_pos (decide_eq_true hg), Display.pixel_setPixel]
      by_cases ht : c = x0 + k ∧ r = ty
      · obtain ⟨rfl, rfl⟩ := ht
        have h1 : ¬(x0 + k < 64 ∧ r < 32 ∧ r = r ∧ x0 ≤ x0 + k ∧ x0 + k < x0 + k) := by omega
        have h2 : x0 + k < 64 ∧ r < 32 ∧ r = r ∧ x0 ≤ x0 + k ∧ x0 + k < x0 + (k + 1) :=
          ⟨hg.1, hg.2, rfl, by omega, by omega⟩
        rw [if_pos ⟨rfl, rfl, hg⟩, ih, decide_eq_false h1, decide_eq_true h2]
        simp
      · rw [if_neg (fun hh => ht ⟨hh.1, hh.2.1⟩), ih]
        have : (c < 64 ∧ r < 32 ∧ r = ty ∧ x0 ≤ c ∧ c < x0 + k) ↔
            (c < 64 ∧ r < 32 ∧ r = ty ∧ x0 ≤ c ∧ c < x0 + (k + 1)) := by
          constructor <;> intro hh <;> refine ⟨hh.1, hh.2.1, hh.2.2.1, hh.2.2.2.1, ?_⟩ <;> omega
        rw [decide_eq_decide.mpr this]
    · rw [if_neg (by simpa using fun h => Nat.not_lt.mp fun h' => hg ⟨h, h'⟩), ih]
      have hg' : ¬(x0 + k < 64 ∧ ty < 32) := hg
      have : (c < 64 ∧ r < 32 ∧ r = ty ∧ x0 ≤ c ∧ c < x0 + k) ↔
          (c < 64 ∧ r < 32 ∧ r = ty ∧ x0 ≤ c ∧ c < x0 + (k + 1)) := by
        constructor <;> intro hh <;> refine ⟨hh.1, hh.2.1, hh.2.2.1, hh.2.2.2.1, ?_⟩ <;> omega
      rw [decide_eq_decide.mpr this]

/-- The collision result after the first `k` bits of one row. -/
theorem collision_drawRow_prefix (row : Byte) (x0 ty : Nat) (acc : Display × Bool) (k : Nat) :
    (((List.range k).foldl (drawBit row x0 ty) acc).2 = true) ↔
      (acc.2 = true ∨ ∃ j < k, x0 + j < 64 ∧ ty < 32 ∧ acc.1.pixel (x0 + j) ty = true ∧ spriteBit row j = true) := by
  induction k with
  | zero => simp
  | succ k ih =>
    have hpix := pixel_drawRow_prefix row x0 ty acc k (x0 + k) ty
    rw [decide_eq_false (by omega)] at hpix
    rw [List.range_succ, List.foldl_append, List.foldl_cons, List.foldl_nil]
    generalize (List.range k).foldl (drawBit row x0 ty) acc = mid at ih hpix
    simp only [Bool.false_and, Bool.xor_false] at hpix
    unfold drawBit inGrid
    by_cases hg : x0 + k < Config.dispW ∧ ty < Config.dispH
    · rw [if_pos (decide_eq_true hg)]
      simp only [Bool.or_eq_true, Bool.and_eq_true, ih, hpix]
      constructor
      · rintro ((h | ⟨j, hj, h⟩) | h)
        · exact .inl h
        · exact .inr ⟨j, by omega, h⟩
        · exact .inr ⟨k, by omega, hg.1, hg.2, h⟩
      · rintro (h | ⟨j, hj, h⟩)
        · exact .inl (.inl h)
        · rcases Nat.lt_or_eq_of_le (Nat.le_of_lt_succ hj) with hj | rfl
          · exact .inl (.inr ⟨j, hj, h⟩)
          · exact .inr h.2.2
    · rw [if_neg (by simpa using fun h => Nat.not_lt.mp fun h' => hg ⟨h, h'⟩), ih]
      constructor
      · rintro (h | ⟨j, hj, h⟩)
        · exact .inl h
        · exact .inr ⟨j, by omega, h⟩
      · rintro (h | ⟨j, hj, h⟩)
        · exact .inl h
        · rcases Nat.lt_or_eq_of_le (Nat.le_of_lt_succ hj) with hj | rfl
          · exact .inr ⟨j, hj, h⟩
          · exact absurd ⟨h.1, h.2.1⟩ hg

/-- A sprite's first row, then the rest of it one row lower. -/
theorem spriteCovers_cons (row : Byte) (rows : List Byte) (x0 y0 c r : Nat) :
    spriteCovers (row :: rows) x0 y0 c r =
      ((decide (r = y0 ∧ x0 ≤ c ∧ c < x0 + 8) && spriteBit row (c - x0)) || spriteCovers rows x0 (y0 + 1) c r) := by
  unfold spriteCovers
  simp only [List.length_cons]
  by_cases hr : r = y0
  · subst hr
    rw [decide_eq_false (show ¬(x0 ≤ c ∧ c < x0 + 8 ∧ r + 1 ≤ r ∧ _) by omega)]
    by_cases hc : x0 ≤ c ∧ c < x0 + 8
    · rw [decide_eq_true (show _ ∧ _ ∧ _ ∧ _ by omega), decide_eq_true (show _ ∧ _ ∧ _ by omega)]
      simp
    · rw [decide_eq_false (show ¬(_ ∧ _ ∧ _ ∧ _) by omega), decide_eq_false (show ¬(_ ∧ _ ∧ _) by omega)]
      simp
  · rw [decide_eq_false (show ¬(r = y0 ∧ x0 ≤ c ∧ c < x0 + 8) by omega), Bool.false_and, Bool.false_or]
    by_cases hlt : r < y0
    · rw [decide_eq_false (show ¬(_ ∧ _ ∧ _ ∧ _) by omega), decide_eq_false (show ¬(_ ∧ _ ∧ _ ∧ _) by omega)]
      simp
    · have hs : r - y0 = (r - (y0 + 1)) + 1 := by omega
      rw [hs, List.getD_cons_succ]
      congr 1
      exact decide_eq_decide.mpr (by omega)

/-- One row of a sprite leaves each pixel as R195 says. -/
theorem pixel_drawRow (row : Byte) (x0 ty : Nat) (acc : Display × Bool) (c r : Nat) :
    (drawRow row x0 ty acc).1.pixel c r =
      (acc.1.pixel c r ^^ (decide (c < 64 ∧ r < 32 ∧ r = ty ∧ x0 ≤ c ∧ c < x0 + 8) && spriteBit row (c - x0))) :=
  pixel_drawRow_prefix row x0 ty acc 8 c r

/-- The pixels a sprite leaves: each pixel of the grid is inverted exactly when a 1 bit of the sprite covers it (R194, R195). -/
theorem pixel_drawRows (rows : List Byte) (x0 : Nat) :
    ∀ (y0 : Nat) (acc : Display × Bool) (c r : Nat),
      (drawRows rows x0 y0 acc).1.pixel c r =
        (acc.1.pixel c r ^^ (decide (c < 64 ∧ r < 32) && spriteCovers rows x0 y0 c r)) := by
  induction rows with
  | nil =>
    intro y0 acc c r
    have : spriteCovers [] x0 y0 c r = false := by
      unfold spriteCovers; rw [decide_eq_false (by simp)]; rfl
    rw [this, Bool.and_false, Bool.xor_false]; rfl
  | cons row rows ih =>
    intro y0 acc c r
    rw [drawRows, ih, pixel_drawRow, spriteCovers_cons, Bool.xor_assoc]
    congr 1
    by_cases hr : r = y0
    · have h0 : spriteCovers rows x0 (y0 + 1) c r = false := by
        unfold spriteCovers; rw [decide_eq_false (by omega)]; rfl
      rw [h0]
      simp [hr, Bool.and_assoc]
    · simp [hr]

/-- The collision result of a sprite: some covered pixel of the grid was on before it was drawn (R195). -/
theorem collision_drawRows (rows : List Byte) (x0 : Nat) :
    ∀ (y0 : Nat) (acc : Display × Bool),
      (drawRows rows x0 y0 acc).2 = true ↔
        (acc.2 = true ∨ ∃ c r, c < 64 ∧ r < 32 ∧ acc.1.pixel c r = true ∧ spriteCovers rows x0 y0 c r = true) := by
  induction rows with
  | nil => intro y0 acc; simp [drawRows, spriteCovers]
  | cons row rows ih =>
    intro y0 acc
    rw [drawRows, ih]
    have hrow := collision_drawRow_prefix row x0 y0 acc 8
    change (drawRow row x0 y0 acc).2 = true ↔ _ at hrow
    rw [hrow]
    constructor
    · rintro ((h | ⟨j, hj, hc, hr, hp, hb⟩) | ⟨c, r, hc, hr, hp, hs⟩)
      · exact .inl h
      · refine .inr ⟨x0 + j, y0, hc, hr, hp, ?_⟩
        rw [spriteCovers_cons, decide_eq_true (show _ ∧ _ ∧ _ by omega)]
        simp [hb]
      · refine .inr ⟨c, r, hc, hr, ?_, by rw [spriteCovers_cons, hs, Bool.or_true]⟩
        have hne : r ≠ y0 := by
          rintro rfl
          unfold spriteCovers at hs
          rw [decide_eq_false (by omega)] at hs
          cases hs
        rw [pixel_drawRow, decide_eq_false (by omega)] at hp
        simpa using hp
    · rintro (h | ⟨c, r, hc, hr, hp, hs⟩)
      · exact .inl (.inl h)
      · rw [spriteCovers_cons, Bool.or_eq_true, Bool.and_eq_true] at hs
        rcases hs with ⟨hd, hb⟩ | hs
        · obtain ⟨rfl, h1, h2⟩ := of_decide_eq_true hd
          have he : x0 + (c - x0) = c := by omega
          exact .inl (.inr ⟨c - x0, by omega, by omega, hr, by rw [he]; exact hp, hb⟩)
        · refine .inr ⟨c, r, hc, hr, ?_, hs⟩
          have hne : r ≠ y0 := by
            rintro rfl
            unfold spriteCovers at hs
            rw [decide_eq_false (by omega)] at hs
            cases hs
          rw [pixel_drawRow, decide_eq_false (by omega)]
          simpa using hp

end Sys2Proof.Machine
end

