-- ==== Sys2Proof/Laws/Encoding.lean ====
section
/-! SUPPORT. The bits of each encoded format, the fields read back from it, and that a word is the concatenation of its fields
(spec/30_encoding.md R91 to R93, R106). -/

namespace Sys2Proof

@[simp] theorem toFin_nibble (x : Fin 16) : (nibble x).toFin = x := rfl

@[simp] theorem nibble_toFin (b : BitVec 4) : nibble b.toFin = b := rfl

/-! ### Bits of an encoded word -/

theorem getLsbD_xyn (opc : BitVec 4) (x y : Reg) (n : BitVec 4) (i : Nat) :
    (encodeXyn opc x y n).getLsbD i =
      if i < 4 then n.getLsbD i
      else if i - 4 < 4 then (nibble y).getLsbD (i - 4)
      else if i - 4 - 4 < 4 then (nibble x).getLsbD (i - 4 - 4)
      else opc.getLsbD (i - 4 - 4 - 4) := by
  show BitVec.getLsbD (w := 4 + 4 + 4 + 4) (opc ++ nibble x ++ nibble y ++ n) i = _
  rw [BitVec.getLsbD_append, BitVec.getLsbD_append, BitVec.getLsbD_append]

theorem getLsbD_xkk (opc : BitVec 4) (x : Reg) (kk : Byte) (i : Nat) :
    (encodeXkk opc x kk).getLsbD i =
      if i < 8 then kk.getLsbD i
      else if i - 8 < 4 then (nibble x).getLsbD (i - 8)
      else opc.getLsbD (i - 8 - 4) := by
  show BitVec.getLsbD (w := 4 + 4 + 8) (opc ++ nibble x ++ kk) i = _
  rw [BitVec.getLsbD_append, BitVec.getLsbD_append]

theorem getLsbD_nnn (opc : BitVec 4) (nnn : BitVec 12) (i : Nat) :
    (encodeNnn opc nnn).getLsbD i = if i < 12 then nnn.getLsbD i else opc.getLsbD (i - 12) := by
  show BitVec.getLsbD (w := 4 + 12) (opc ++ nnn) i = _
  rw [BitVec.getLsbD_append]

theorem getLsbD_wordOfBytes (hi lo : Byte) (i : Nat) :
    (wordOfBytes hi lo).getLsbD i = if i < 8 then lo.getLsbD i else hi.getLsbD (i - 8) := by
  show BitVec.getLsbD (w := 8 + 8) (hi ++ lo) i = _
  rw [BitVec.getLsbD_append]

/-! ### Fields of an encoded word -/

theorem fieldN3_xyn (opc : BitVec 4) (x y : Reg) (n : BitVec 4) : fieldN3 (encodeXyn opc x y n) = opc := by
  refine BitVec.eq_of_getLsbD_eq fun i hi => ?_
  rw [fieldN3, BitVec.getLsbD_extractLsb', getLsbD_xyn]
  interval_cases i <;> simp

theorem fieldX_xyn (opc : BitVec 4) (x y : Reg) (n : BitVec 4) : fieldX (encodeXyn opc x y n) = x := by
  suffices h : (encodeXyn opc x y n).extractLsb' 8 4 = nibble x from congrArg BitVec.toFin h
  refine BitVec.eq_of_getLsbD_eq fun i hi => ?_
  rw [BitVec.getLsbD_extractLsb', getLsbD_xyn]
  interval_cases i <;> simp

theorem fieldY_xyn (opc : BitVec 4) (x y : Reg) (n : BitVec 4) : fieldY (encodeXyn opc x y n) = y := by
  suffices h : (encodeXyn opc x y n).extractLsb' 4 4 = nibble y from congrArg BitVec.toFin h
  refine BitVec.eq_of_getLsbD_eq fun i hi => ?_
  rw [BitVec.getLsbD_extractLsb', getLsbD_xyn]
  interval_cases i <;> simp

theorem fieldN0_xyn (opc : BitVec 4) (x y : Reg) (n : BitVec 4) : fieldN0 (encodeXyn opc x y n) = n := by
  refine BitVec.eq_of_getLsbD_eq fun i hi => ?_
  rw [fieldN0, BitVec.getLsbD_extractLsb', getLsbD_xyn]
  interval_cases i <;> simp

theorem fieldN_xyn (opc : BitVec 4) (x y : Reg) (n : Fin 16) : fieldN (encodeXyn opc x y (nibble n)) = n :=
  congrArg BitVec.toFin (fieldN0_xyn opc x y (nibble n))

theorem fieldN3_xkk (opc : BitVec 4) (x : Reg) (kk : Byte) : fieldN3 (encodeXkk opc x kk) = opc := by
  refine BitVec.eq_of_getLsbD_eq fun i hi => ?_
  rw [fieldN3, BitVec.getLsbD_extractLsb', getLsbD_xkk]
  interval_cases i <;> simp

theorem fieldX_xkk (opc : BitVec 4) (x : Reg) (kk : Byte) : fieldX (encodeXkk opc x kk) = x := by
  suffices h : (encodeXkk opc x kk).extractLsb' 8 4 = nibble x from congrArg BitVec.toFin h
  refine BitVec.eq_of_getLsbD_eq fun i hi => ?_
  rw [BitVec.getLsbD_extractLsb', getLsbD_xkk]
  interval_cases i <;> simp

theorem fieldKk_xkk (opc : BitVec 4) (x : Reg) (kk : Byte) : fieldKk (encodeXkk opc x kk) = kk := by
  refine BitVec.eq_of_getLsbD_eq fun i hi => ?_
  rw [fieldKk, BitVec.getLsbD_extractLsb', getLsbD_xkk]
  simp [hi]

theorem fieldN3_nnn (opc : BitVec 4) (nnn : BitVec 12) : fieldN3 (encodeNnn opc nnn) = opc := by
  refine BitVec.eq_of_getLsbD_eq fun i hi => ?_
  rw [fieldN3, BitVec.getLsbD_extractLsb', getLsbD_nnn]
  simp [hi]

theorem fieldNnn_nnn (opc : BitVec 4) (nnn : BitVec 12) : fieldNnn (encodeNnn opc nnn) = nnn := by
  refine BitVec.eq_of_getLsbD_eq fun i hi => ?_
  rw [fieldNnn, BitVec.getLsbD_extractLsb', getLsbD_nnn]
  simp [hi]

/-! ### A word from its fields -/

theorem encodeXyn_fields (op : Opcode) : encodeXyn (fieldN3 op) (fieldX op) (fieldY op) (fieldN0 op) = op := by
  refine BitVec.eq_of_getLsbD_eq fun i hi => ?_
  rw [getLsbD_xyn]
  simp only [fieldN3, fieldX, fieldY, fieldN0, nibble_toFin, BitVec.getLsbD_extractLsb']
  interval_cases i <;> simp

theorem encodeXkk_fields (op : Opcode) : encodeXkk (fieldN3 op) (fieldX op) (fieldKk op) = op := by
  refine BitVec.eq_of_getLsbD_eq fun i hi => ?_
  rw [getLsbD_xkk]
  simp only [fieldN3, fieldX, fieldKk, nibble_toFin, BitVec.getLsbD_extractLsb']
  interval_cases i <;> simp

theorem encodeNnn_fields (op : Opcode) : encodeNnn (fieldN3 op) (fieldNnn op) = op := by
  refine BitVec.eq_of_getLsbD_eq fun i hi => ?_
  rw [getLsbD_nnn]
  simp only [fieldN3, fieldNnn, BitVec.getLsbD_extractLsb']
  interval_cases i <;> simp

/-- The word of a word's two bytes in memory order (R67, R106). -/
theorem wordOfBytes_bytesOfWord (op : Opcode) : wordOfBytes (op.extractLsb' 8 8) (op.extractLsb' 0 8) = op := by
  refine BitVec.eq_of_getLsbD_eq fun i hi => ?_
  rw [getLsbD_wordOfBytes]
  simp only [BitVec.getLsbD_extractLsb']
  interval_cases i <;> simp

/-- The byte at the lower address counts 256 (R67). -/
theorem toNat_wordOfBytes (hi lo : Byte) : (wordOfBytes hi lo).toNat = hi.toNat * 256 + lo.toNat := by
  unfold wordOfBytes
  rw [BitVec.toNat_append, ← Nat.shiftLeft_add_eq_or_of_lt lo.isLt, Nat.shiftLeft_eq]

/-- Decoding the bytes of a word is decoding the word (R91). -/
theorem decode_bytesOfWord (op : Opcode) (rest : List Byte) :
    decode (bytesOfWord op ++ rest) = (decodeWord op).map (·, rest) := by
  simp only [bytesOfWord, List.cons_append, List.nil_append, decode, wordOfBytes_bytesOfWord]

end Sys2Proof
end

