-- ==== Sys2Proof/Laws/Memory.lean ====
section
/-! SUPPORT. Memory: read after write, the canonical form every operation keeps, and that equal reads make canonical memories
equal (spec/20_memory.md R63 to R65, R73). -/

namespace Sys2Proof.Machine

variable {font : Font} {m : Memory}

@[simp] theorem Memory.get_nil (font : Font) (a : Nat) : Memory.get font [] a = Memory.unlisted font a := rfl

/-- An address below every listed one reads as unlisted. -/
theorem Memory.get_of_lt_all (a : Nat) (h : ∀ c ∈ m, a < c.1) : Memory.get font m a = Memory.unlisted font a := by
  induction m with
  | nil => rfl
  | cons c m ih =>
    have hc : a < c.1 := h c (by simp)
    rw [Memory.get, if_neg (by omega), ih fun d hd => h d (by simp [hd])]

/-- The byte written is read back, and every other byte is as before. The list must be rising for the unlisted case. -/
theorem Memory.get_put (hm : m.Pairwise fun c d => c.1 < d.1) (a b : Nat) (w : Byte) :
    Memory.get font (Memory.put font m a w) b = if b = a then w else Memory.get font m b := by
  induction m with
  | nil => by_cases hw : w = Memory.unlisted font a <;> by_cases hb : b = a <;> simp [Memory.put, Memory.get, hw, hb]
  | cons c m ih =>
    obtain ⟨hc, hm'⟩ := List.pairwise_cons.mp hm
    have low (hlt : a < c.1) : Memory.get font (c :: m) a = Memory.unlisted font a :=
      Memory.get_of_lt_all a fun d hd => by
        rcases List.mem_cons.mp hd with rfl | hd
        · exact hlt
        · exact hlt.trans (hc d hd)
    obtain ⟨e, u⟩ := c
    rcases Nat.lt_trichotomy a e with hlt | rfl | hgt
    · by_cases hw : w = Memory.unlisted font a
      · rw [Memory.put, if_pos hlt, if_pos hw]
        split
        · rename_i hb; rw [hb, hw]; exact low hlt
        · rfl
      · rw [Memory.put, if_pos hlt, if_neg hw, Memory.get]
    · by_cases hw : w = Memory.unlisted font a
      · rw [Memory.put, if_neg (by omega), if_pos rfl, if_pos hw, Memory.get]
        split
        · rename_i hb; rw [hb, hw]; exact Memory.get_of_lt_all a hc
        · rfl
      · rw [Memory.put, if_neg (by omega), if_pos rfl, if_neg hw, Memory.get, Memory.get]
        split <;> rfl
    · rw [Memory.put, if_neg (by omega), if_neg (by omega), Memory.get, ih hm', Memory.get]
      by_cases hb : b = e
      · rw [if_pos hb, if_neg (by omega), if_pos hb]
      · rw [if_neg hb, if_neg hb]

/-- What `put` may list: the byte written, or what was listed. -/
theorem Memory.mem_put {a : Nat} {w : Byte} {c : Host.Cell} (h : c ∈ Memory.put font m a w) :
    c ∈ m ∨ (c = (a, w) ∧ w ≠ Memory.unlisted font a) := by
  induction m with
  | nil => by_cases hw : w = Memory.unlisted font a <;> simp_all [Memory.put]
  | cons d m ih =>
    obtain ⟨e, u⟩ := d
    unfold Memory.put at h
    split at h
    · split at h
      · exact .inl h
      · rcases List.mem_cons.mp h with rfl | h
        · exact .inr ⟨rfl, ‹_›⟩
        · exact .inl h
    · split at h
      · split at h
        · exact .inl (List.mem_cons_of_mem _ h)
        · rcases List.mem_cons.mp h with rfl | h
          · exact .inr ⟨rfl, ‹_›⟩
          · exact .inl (List.mem_cons_of_mem _ h)
      · rcases List.mem_cons.mp h with rfl | h
        · exact .inl (by simp)
        · rcases ih h with h | h
          · exact .inl (List.mem_cons_of_mem _ h)
          · exact .inr h

theorem Memory.put_rising (hm : m.Pairwise fun c d => c.1 < d.1) (a : Nat) (w : Byte) :
    (Memory.put font m a w).Pairwise fun c d => c.1 < d.1 := by
  induction m with
  | nil => unfold Memory.put; split <;> simp
  | cons c m ih =>
    obtain ⟨hc, hm'⟩ := List.pairwise_cons.mp hm
    obtain ⟨e, u⟩ := c
    unfold Memory.put
    split
    · rename_i hlt
      split
      · exact hm
      · refine List.pairwise_cons.mpr ⟨fun d hd => ?_, hm⟩
        rcases List.mem_cons.mp hd with rfl | hd
        · exact hlt
        · exact hlt.trans (hc d hd)
    · split
      · rename_i he
        subst he
        split
        · exact hm'
        · exact List.pairwise_cons.mpr ⟨hc, hm'⟩
      · refine List.pairwise_cons.mpr ⟨fun d hd => ?_, ih hm'⟩
        rcases Memory.mem_put hd with hd | ⟨rfl, -⟩
        · exact hc d hd
        · show e < a; omega

/-- Writing one byte keeps the canonical form. -/
theorem Memory.put_wf (hm : Memory.wf font m) {a : Nat} (ha : a < Config.memSize) (w : Byte) :
    Memory.wf font (Memory.put font m a w) := by
  refine ⟨Memory.put_rising hm.1 a w, fun c hc => ?_⟩
  rcases Memory.mem_put hc with hc | ⟨rfl, hw⟩
  · exact hm.2 c hc
  · exact ⟨ha, hw⟩

theorem Memory.putAll_rising (bytes : List Byte) :
    ∀ {m : Memory} (a : Nat), (m.Pairwise fun c d => c.1 < d.1) →
      (Memory.putAll font m a bytes).Pairwise fun c d => c.1 < d.1 := by
  induction bytes with
  | nil => exact fun _ h => h
  | cons w ws ih => exact fun a h => ih (a + 1) (Memory.put_rising h a w)

/-- Writing a list of bytes inside the address space keeps the canonical form. -/
theorem Memory.putAll_wf (bytes : List Byte) :
    ∀ {m : Memory} {a : Nat}, Memory.wf font m → a + bytes.length ≤ Config.memSize →
      Memory.wf font (Memory.putAll font m a bytes) := by
  induction bytes with
  | nil => exact fun h _ => h
  | cons w ws ih =>
    intro m a h ha
    simp only [List.length_cons] at ha
    exact ih (Memory.put_wf h (by omega) w) (by omega)

/-- A write of a list of bytes is read back byte by byte, and every byte outside it is as before. -/
theorem Memory.get_putAll (bytes : List Byte) :
    ∀ {m : Memory} (a b : Nat), (m.Pairwise fun c d => c.1 < d.1) →
      Memory.get font (Memory.putAll font m a bytes) b =
        if a ≤ b ∧ b < a + bytes.length then bytes.getD (b - a) 0#8 else Memory.get font m b := by
  induction bytes with
  | nil => intro m a b _; rw [if_neg (by simp)]; rfl
  | cons w ws ih =>
    intro m a b h
    rw [Memory.putAll, ih (a + 1) b (Memory.put_rising h a w), Memory.get_put h]
    simp only [List.length_cons]
    rcases Nat.lt_trichotomy b a with hb | rfl | hb
    · rw [if_neg (by omega), if_neg (by omega), if_neg (by omega)]
    · rw [if_neg (by omega), if_pos rfl, if_pos (by omega)]; simp
    · have hs : b - a = (b - (a + 1)) + 1 := by omega
      by_cases hin : b < a + (ws.length + 1)
      · rw [if_pos (by omega), if_pos (by omega), hs]; simp
      · rw [if_neg (by omega), if_neg (by omega), if_neg (by omega)]

/-- The empty listing is canonical: the memory of `State.reset`. -/
theorem Memory.nil_wf (font : Font) : Memory.wf font [] := ⟨List.Pairwise.nil, by simp⟩

/-- A listed byte of a canonical memory is what its address reads as. -/
theorem Memory.get_of_mem (hm : m.Pairwise fun c d => c.1 < d.1) {c : Host.Cell} (hc : c ∈ m) :
    Memory.get font m c.1 = c.2 := by
  induction m with
  | nil => cases hc
  | cons d m ih =>
    obtain ⟨hd, hm⟩ := List.pairwise_cons.mp hm
    rcases List.mem_cons.mp hc with rfl | hc
    · simp [Memory.get]
    · have := hd c hc
      rw [Memory.get, if_neg (by omega), ih hm hc]

/-! ### The access primitives on states -/

@[simp] theorem inRange_eq_true {a n : Nat} : inRange a n = true ↔ a + n ≤ 4096 := by
  simp [inRange]

@[simp] theorem inRange_eq_false {a n : Nat} : inRange a n = false ↔ 4096 < a + n := by
  simp [inRange]

theorem State.memRead_of_inRange (s : State) {a n : Nat} (h : a + n ≤ 4096) :
    s.memRead a n = some ((List.range n).map fun j => s.readByte (a + j)) := by
  unfold State.memRead; rw [if_pos (inRange_eq_true.mpr h)]

theorem State.memRead_of_outside (s : State) {a n : Nat} (h : 4096 < a + n) : s.memRead a n = none := by
  unfold State.memRead; rw [if_neg (by simp [h])]

theorem State.memWrite_of_inRange (s : State) {a : Nat} {bytes : List Byte} (h : a + bytes.length ≤ 4096) :
    s.memWrite a bytes = some { s with mem := Memory.putAll s.params.font s.mem a bytes } := by
  unfold State.memWrite; rw [if_pos (inRange_eq_true.mpr h)]

theorem State.memWrite_of_outside (s : State) {a : Nat} {bytes : List Byte} (h : 4096 < a + bytes.length) :
    s.memWrite a bytes = none := by
  unfold State.memWrite; rw [if_neg (by simp [h])]

/-- Everything a completed `MemWrite` does: the access was in range and only memory changed. -/
theorem State.memWrite_eq_some {s t : State} {a : Nat} {bytes : List Byte} (h : s.memWrite a bytes = some t) :
    a + bytes.length ≤ 4096 ∧ t = { s with mem := Memory.putAll s.params.font s.mem a bytes } := by
  unfold State.memWrite at h
  split at h
  · rename_i hr; exact ⟨inRange_eq_true.mp hr, (Option.some.inj h).symm⟩
  · cases h

/-- Everything a completed `MemRead` answers. -/
theorem State.memRead_eq_some {s : State} {a n : Nat} {bytes : List Byte} (h : s.memRead a n = some bytes) :
    a + n ≤ 4096 ∧ bytes = (List.range n).map fun j => s.readByte (a + j) := by
  unfold State.memRead at h
  split at h
  · rename_i hr; exact ⟨inRange_eq_true.mp hr, (Option.some.inj h).symm⟩
  · cases h

/-- The word `fetch` answers: the byte at `pc` in the high half (R67, R125). -/
theorem State.fetch_of_inRange (s : State) (h : s.pc.toNat + 2 ≤ 4096) :
    s.fetch = some (wordOfBytes (s.readByte s.pc.toNat) (s.readByte (s.pc.toNat + 1))) := by
  unfold State.fetch; rw [s.memRead_of_inRange h]; rfl

theorem State.fetch_of_outside (s : State) (h : 4096 < s.pc.toNat + 2) : s.fetch = none := by
  unfold State.fetch; rw [s.memRead_of_outside h]

/-- `fetch` answers no word exactly when `pc >= 0xFFF` (R125). -/
theorem State.fetch_eq_none_iff (s : State) : s.fetch = none ↔ 0xFFF ≤ s.pc.toNat := by
  by_cases h : s.pc.toNat + 2 ≤ 4096
  · simp [s.fetch_of_inRange h]; omega
  · simp [s.fetch_of_outside (by omega)]; omega

/-- A state whose fetch succeeds has `pc` at most 0xFFE. -/
theorem State.pc_of_fetch {s : State} {op : Opcode} (h : s.fetch = some op) : s.pc.toNat ≤ 0xFFE := by
  by_contra hn
  rw [s.fetch_of_outside (by omega)] at h
  cases h

end Sys2Proof.Machine
end

