-- ==== Sys2Proof/Laws/State.lean ====
section
/-! SUPPORT. What each update of the state does to each field, one lemma per field per update, so that no later proof unfolds a
record update. -/

namespace Sys2Proof.Machine

variable (s : State)

/-! ### `State.setV` -/

@[simp] theorem State.setV_v (x : Reg) (b : Byte) : (s.setV x b).v = s.v.set x b := rfl
@[simp] theorem State.setV_i (x : Reg) (b : Byte) : (s.setV x b).i = s.i := rfl
@[simp] theorem State.setV_pc (x : Reg) (b : Byte) : (s.setV x b).pc = s.pc := rfl
@[simp] theorem State.setV_stack (x : Reg) (b : Byte) : (s.setV x b).stack = s.stack := rfl
@[simp] theorem State.setV_mem (x : Reg) (b : Byte) : (s.setV x b).mem = s.mem := rfl
@[simp] theorem State.setV_display (x : Reg) (b : Byte) : (s.setV x b).display = s.display := rfl
@[simp] theorem State.setV_dt (x : Reg) (b : Byte) : (s.setV x b).dt = s.dt := rfl
@[simp] theorem State.setV_st (x : Reg) (b : Byte) : (s.setV x b).st = s.st := rfl
@[simp] theorem State.setV_keys (x : Reg) (b : Byte) : (s.setV x b).keys = s.keys := rfl
@[simp] theorem State.setV_waiting (x : Reg) (b : Byte) : (s.setV x b).waiting = s.waiting := rfl
@[simp] theorem State.setV_halted (x : Reg) (b : Byte) : (s.setV x b).halted = s.halted := rfl
@[simp] theorem State.setV_faultRecord (x : Reg) (b : Byte) : (s.setV x b).faultRecord = s.faultRecord := rfl
@[simp] theorem State.setV_tExecRef (x : Reg) (b : Byte) : (s.setV x b).tExecRef = s.tExecRef := rfl
@[simp] theorem State.setV_tTickRef (x : Reg) (b : Byte) : (s.setV x b).tTickRef = s.tTickRef := rfl
@[simp] theorem State.setV_params (x : Reg) (b : Byte) : (s.setV x b).params = s.params := rfl
@[simp] theorem State.setV_args (x : Reg) (b : Byte) : (s.setV x b).args = s.args := rfl
@[simp] theorem State.setV_script (x : Reg) (b : Byte) : (s.setV x b).script = s.script := rfl
@[simp] theorem State.setV_draws (x : Reg) (b : Byte) : (s.setV x b).draws = s.draws := rfl

/-! ### `State.setVFlag` -/

@[simp] theorem State.setVFlag_v (x : Reg) (r f : Byte) : (s.setVFlag x r f).v = (s.v.set x r).set vf f := rfl
@[simp] theorem State.setVFlag_i (x : Reg) (r f : Byte) : (s.setVFlag x r f).i = s.i := rfl
@[simp] theorem State.setVFlag_pc (x : Reg) (r f : Byte) : (s.setVFlag x r f).pc = s.pc := rfl
@[simp] theorem State.setVFlag_stack (x : Reg) (r f : Byte) : (s.setVFlag x r f).stack = s.stack := rfl
@[simp] theorem State.setVFlag_mem (x : Reg) (r f : Byte) : (s.setVFlag x r f).mem = s.mem := rfl
@[simp] theorem State.setVFlag_display (x : Reg) (r f : Byte) : (s.setVFlag x r f).display = s.display := rfl
@[simp] theorem State.setVFlag_dt (x : Reg) (r f : Byte) : (s.setVFlag x r f).dt = s.dt := rfl
@[simp] theorem State.setVFlag_st (x : Reg) (r f : Byte) : (s.setVFlag x r f).st = s.st := rfl
@[simp] theorem State.setVFlag_keys (x : Reg) (r f : Byte) : (s.setVFlag x r f).keys = s.keys := rfl
@[simp] theorem State.setVFlag_waiting (x : Reg) (r f : Byte) : (s.setVFlag x r f).waiting = s.waiting := rfl
@[simp] theorem State.setVFlag_halted (x : Reg) (r f : Byte) : (s.setVFlag x r f).halted = s.halted := rfl
@[simp] theorem State.setVFlag_faultRecord (x : Reg) (r f : Byte) : (s.setVFlag x r f).faultRecord = s.faultRecord := rfl
@[simp] theorem State.setVFlag_tExecRef (x : Reg) (r f : Byte) : (s.setVFlag x r f).tExecRef = s.tExecRef := rfl
@[simp] theorem State.setVFlag_tTickRef (x : Reg) (r f : Byte) : (s.setVFlag x r f).tTickRef = s.tTickRef := rfl
@[simp] theorem State.setVFlag_params (x : Reg) (r f : Byte) : (s.setVFlag x r f).params = s.params := rfl
@[simp] theorem State.setVFlag_args (x : Reg) (r f : Byte) : (s.setVFlag x r f).args = s.args := rfl
@[simp] theorem State.setVFlag_script (x : Reg) (r f : Byte) : (s.setVFlag x r f).script = s.script := rfl
@[simp] theorem State.setVFlag_draws (x : Reg) (r f : Byte) : (s.setVFlag x r f).draws = s.draws := rfl

/-! ### `State.setVs` -/

@[simp] theorem State.setVs_v (bytes : List Byte) : (s.setVs bytes).v = writeRegs bytes 0 s.v := rfl
@[simp] theorem State.setVs_i (bytes : List Byte) : (s.setVs bytes).i = s.i := rfl
@[simp] theorem State.setVs_pc (bytes : List Byte) : (s.setVs bytes).pc = s.pc := rfl
@[simp] theorem State.setVs_stack (bytes : List Byte) : (s.setVs bytes).stack = s.stack := rfl
@[simp] theorem State.setVs_mem (bytes : List Byte) : (s.setVs bytes).mem = s.mem := rfl
@[simp] theorem State.setVs_display (bytes : List Byte) : (s.setVs bytes).display = s.display := rfl
@[simp] theorem State.setVs_dt (bytes : List Byte) : (s.setVs bytes).dt = s.dt := rfl
@[simp] theorem State.setVs_st (bytes : List Byte) : (s.setVs bytes).st = s.st := rfl
@[simp] theorem State.setVs_keys (bytes : List Byte) : (s.setVs bytes).keys = s.keys := rfl
@[simp] theorem State.setVs_waiting (bytes : List Byte) : (s.setVs bytes).waiting = s.waiting := rfl
@[simp] theorem State.setVs_halted (bytes : List Byte) : (s.setVs bytes).halted = s.halted := rfl
@[simp] theorem State.setVs_faultRecord (bytes : List Byte) : (s.setVs bytes).faultRecord = s.faultRecord := rfl
@[simp] theorem State.setVs_tExecRef (bytes : List Byte) : (s.setVs bytes).tExecRef = s.tExecRef := rfl
@[simp] theorem State.setVs_tTickRef (bytes : List Byte) : (s.setVs bytes).tTickRef = s.tTickRef := rfl
@[simp] theorem State.setVs_params (bytes : List Byte) : (s.setVs bytes).params = s.params := rfl
@[simp] theorem State.setVs_args (bytes : List Byte) : (s.setVs bytes).args = s.args := rfl
@[simp] theorem State.setVs_script (bytes : List Byte) : (s.setVs bytes).script = s.script := rfl
@[simp] theorem State.setVs_draws (bytes : List Byte) : (s.setVs bytes).draws = s.draws := rfl

/-! ### `State.setKey` -/

@[simp] theorem State.setKey_v (k : KeyId) (b : Bool) : (s.setKey k b).v = s.v := rfl
@[simp] theorem State.setKey_i (k : KeyId) (b : Bool) : (s.setKey k b).i = s.i := rfl
@[simp] theorem State.setKey_pc (k : KeyId) (b : Bool) : (s.setKey k b).pc = s.pc := rfl
@[simp] theorem State.setKey_stack (k : KeyId) (b : Bool) : (s.setKey k b).stack = s.stack := rfl
@[simp] theorem State.setKey_mem (k : KeyId) (b : Bool) : (s.setKey k b).mem = s.mem := rfl
@[simp] theorem State.setKey_display (k : KeyId) (b : Bool) : (s.setKey k b).display = s.display := rfl
@[simp] theorem State.setKey_dt (k : KeyId) (b : Bool) : (s.setKey k b).dt = s.dt := rfl
@[simp] theorem State.setKey_st (k : KeyId) (b : Bool) : (s.setKey k b).st = s.st := rfl
@[simp] theorem State.setKey_keys (k : KeyId) (b : Bool) : (s.setKey k b).keys = s.keys.set k b := rfl
@[simp] theorem State.setKey_waiting (k : KeyId) (b : Bool) : (s.setKey k b).waiting = s.waiting := rfl
@[simp] theorem State.setKey_halted (k : KeyId) (b : Bool) : (s.setKey k b).halted = s.halted := rfl
@[simp] theorem State.setKey_faultRecord (k : KeyId) (b : Bool) : (s.setKey k b).faultRecord = s.faultRecord := rfl
@[simp] theorem State.setKey_tExecRef (k : KeyId) (b : Bool) : (s.setKey k b).tExecRef = s.tExecRef := rfl
@[simp] theorem State.setKey_tTickRef (k : KeyId) (b : Bool) : (s.setKey k b).tTickRef = s.tTickRef := rfl
@[simp] theorem State.setKey_params (k : KeyId) (b : Bool) : (s.setKey k b).params = s.params := rfl
@[simp] theorem State.setKey_args (k : KeyId) (b : Bool) : (s.setKey k b).args = s.args := rfl
@[simp] theorem State.setKey_script (k : KeyId) (b : Bool) : (s.setKey k b).script = s.script := rfl
@[simp] theorem State.setKey_draws (k : KeyId) (b : Bool) : (s.setKey k b).draws = s.draws := rfl

/-! ### `State.enterFault` -/

@[simp] theorem State.enterFault_v (c : Fault) (op : Opcode) (info : Option Addr) : (s.enterFault c op info).v = s.v := rfl
@[simp] theorem State.enterFault_i (c : Fault) (op : Opcode) (info : Option Addr) : (s.enterFault c op info).i = s.i := rfl
@[simp] theorem State.enterFault_pc (c : Fault) (op : Opcode) (info : Option Addr) : (s.enterFault c op info).pc = s.pc := rfl
@[simp] theorem State.enterFault_stack (c : Fault) (op : Opcode) (info : Option Addr) : (s.enterFault c op info).stack = s.stack := rfl
@[simp] theorem State.enterFault_mem (c : Fault) (op : Opcode) (info : Option Addr) : (s.enterFault c op info).mem = s.mem := rfl
@[simp] theorem State.enterFault_display (c : Fault) (op : Opcode) (info : Option Addr) : (s.enterFault c op info).display = s.display := rfl
@[simp] theorem State.enterFault_dt (c : Fault) (op : Opcode) (info : Option Addr) : (s.enterFault c op info).dt = s.dt := rfl
@[simp] theorem State.enterFault_st (c : Fault) (op : Opcode) (info : Option Addr) : (s.enterFault c op info).st = s.st := rfl
@[simp] theorem State.enterFault_keys (c : Fault) (op : Opcode) (info : Option Addr) : (s.enterFault c op info).keys = s.keys := rfl
@[simp] theorem State.enterFault_waiting (c : Fault) (op : Opcode) (info : Option Addr) : (s.enterFault c op info).waiting = s.waiting := rfl
@[simp] theorem State.enterFault_halted (c : Fault) (op : Opcode) (info : Option Addr) : (s.enterFault c op info).halted = true := rfl
@[simp] theorem State.enterFault_faultRecord (c : Fault) (op : Opcode) (info : Option Addr) : (s.enterFault c op info).faultRecord = { cause := some c, pc := s.pc, opcode := op, addr := info.getD s.faultRecord.addr } := rfl
@[simp] theorem State.enterFault_tExecRef (c : Fault) (op : Opcode) (info : Option Addr) : (s.enterFault c op info).tExecRef = s.tExecRef := rfl
@[simp] theorem State.enterFault_tTickRef (c : Fault) (op : Opcode) (info : Option Addr) : (s.enterFault c op info).tTickRef = s.tTickRef := rfl
@[simp] theorem State.enterFault_params (c : Fault) (op : Opcode) (info : Option Addr) : (s.enterFault c op info).params = s.params := rfl
@[simp] theorem State.enterFault_args (c : Fault) (op : Opcode) (info : Option Addr) : (s.enterFault c op info).args = s.args := rfl
@[simp] theorem State.enterFault_script (c : Fault) (op : Opcode) (info : Option Addr) : (s.enterFault c op info).script = s.script := rfl
@[simp] theorem State.enterFault_draws (c : Fault) (op : Opcode) (info : Option Addr) : (s.enterFault c op info).draws = s.draws := rfl

/-! ### `State.fetchFault` -/

@[simp] theorem State.fetchFault_v : (s.fetchFault).v = s.v := rfl
@[simp] theorem State.fetchFault_i : (s.fetchFault).i = s.i := rfl
@[simp] theorem State.fetchFault_pc : (s.fetchFault).pc = s.pc := rfl
@[simp] theorem State.fetchFault_stack : (s.fetchFault).stack = s.stack := rfl
@[simp] theorem State.fetchFault_mem : (s.fetchFault).mem = s.mem := rfl
@[simp] theorem State.fetchFault_display : (s.fetchFault).display = s.display := rfl
@[simp] theorem State.fetchFault_dt : (s.fetchFault).dt = s.dt := rfl
@[simp] theorem State.fetchFault_st : (s.fetchFault).st = s.st := rfl
@[simp] theorem State.fetchFault_keys : (s.fetchFault).keys = s.keys := rfl
@[simp] theorem State.fetchFault_waiting : (s.fetchFault).waiting = s.waiting := rfl
@[simp] theorem State.fetchFault_halted : (s.fetchFault).halted = true := rfl
@[simp] theorem State.fetchFault_faultRecord : (s.fetchFault).faultRecord = { cause := some .memRange, pc := s.pc, opcode := Config.freeOpcode s.draws, addr := s.pc } := rfl
@[simp] theorem State.fetchFault_tExecRef : (s.fetchFault).tExecRef = s.tExecRef := rfl
@[simp] theorem State.fetchFault_tTickRef : (s.fetchFault).tTickRef = s.tTickRef := rfl
@[simp] theorem State.fetchFault_params : (s.fetchFault).params = s.params := rfl
@[simp] theorem State.fetchFault_args : (s.fetchFault).args = s.args := rfl
@[simp] theorem State.fetchFault_script : (s.fetchFault).script = s.script := rfl
@[simp] theorem State.fetchFault_draws : (s.fetchFault).draws = s.draws := rfl

/-! ### `State.decodeFault` -/

@[simp] theorem State.decodeFault_v (op : Opcode) : (s.decodeFault op).v = s.v := rfl
@[simp] theorem State.decodeFault_i (op : Opcode) : (s.decodeFault op).i = s.i := rfl
@[simp] theorem State.decodeFault_pc (op : Opcode) : (s.decodeFault op).pc = s.pc := rfl
@[simp] theorem State.decodeFault_stack (op : Opcode) : (s.decodeFault op).stack = s.stack := rfl
@[simp] theorem State.decodeFault_mem (op : Opcode) : (s.decodeFault op).mem = s.mem := rfl
@[simp] theorem State.decodeFault_display (op : Opcode) : (s.decodeFault op).display = s.display := rfl
@[simp] theorem State.decodeFault_dt (op : Opcode) : (s.decodeFault op).dt = s.dt := rfl
@[simp] theorem State.decodeFault_st (op : Opcode) : (s.decodeFault op).st = s.st := rfl
@[simp] theorem State.decodeFault_keys (op : Opcode) : (s.decodeFault op).keys = s.keys := rfl
@[simp] theorem State.decodeFault_waiting (op : Opcode) : (s.decodeFault op).waiting = s.waiting := rfl
@[simp] theorem State.decodeFault_halted (op : Opcode) : (s.decodeFault op).halted = true := rfl
@[simp] theorem State.decodeFault_faultRecord (op : Opcode) : (s.decodeFault op).faultRecord = { cause := some .decodeError, pc := s.pc, opcode := op, addr := s.faultRecord.addr } := rfl
@[simp] theorem State.decodeFault_tExecRef (op : Opcode) : (s.decodeFault op).tExecRef = s.tExecRef := rfl
@[simp] theorem State.decodeFault_tTickRef (op : Opcode) : (s.decodeFault op).tTickRef = s.tTickRef := rfl
@[simp] theorem State.decodeFault_params (op : Opcode) : (s.decodeFault op).params = s.params := rfl
@[simp] theorem State.decodeFault_args (op : Opcode) : (s.decodeFault op).args = s.args := rfl
@[simp] theorem State.decodeFault_script (op : Opcode) : (s.decodeFault op).script = s.script := rfl
@[simp] theorem State.decodeFault_draws (op : Opcode) : (s.decodeFault op).draws = s.draws := rfl

/-! ### `State.markExecuted` -/

@[simp] theorem State.markExecuted_v : (s.markExecuted).v = s.v := rfl
@[simp] theorem State.markExecuted_i : (s.markExecuted).i = s.i := rfl
@[simp] theorem State.markExecuted_pc : (s.markExecuted).pc = s.pc := rfl
@[simp] theorem State.markExecuted_stack : (s.markExecuted).stack = s.stack := rfl
@[simp] theorem State.markExecuted_mem : (s.markExecuted).mem = s.mem := rfl
@[simp] theorem State.markExecuted_display : (s.markExecuted).display = s.display := rfl
@[simp] theorem State.markExecuted_dt : (s.markExecuted).dt = s.dt := rfl
@[simp] theorem State.markExecuted_st : (s.markExecuted).st = s.st := rfl
@[simp] theorem State.markExecuted_keys : (s.markExecuted).keys = s.keys := rfl
@[simp] theorem State.markExecuted_waiting : (s.markExecuted).waiting = s.waiting := rfl
@[simp] theorem State.markExecuted_halted : (s.markExecuted).halted = s.halted := rfl
@[simp] theorem State.markExecuted_faultRecord : (s.markExecuted).faultRecord = s.faultRecord := rfl
@[simp] theorem State.markExecuted_tExecRef : (s.markExecuted).tExecRef = s.args.timeOr s.tExecRef := rfl
@[simp] theorem State.markExecuted_tTickRef : (s.markExecuted).tTickRef = s.tTickRef := rfl
@[simp] theorem State.markExecuted_params : (s.markExecuted).params = s.params := rfl
@[simp] theorem State.markExecuted_args : (s.markExecuted).args = s.args := rfl
@[simp] theorem State.markExecuted_script : (s.markExecuted).script = s.script := rfl
@[simp] theorem State.markExecuted_draws : (s.markExecuted).draws = s.draws := rfl

/-! ### `State.consume` -/

@[simp] theorem State.consume_v : (s.consume).v = s.v := rfl
@[simp] theorem State.consume_i : (s.consume).i = s.i := rfl
@[simp] theorem State.consume_pc : (s.consume).pc = s.pc := rfl
@[simp] theorem State.consume_stack : (s.consume).stack = s.stack := rfl
@[simp] theorem State.consume_mem : (s.consume).mem = s.mem := rfl
@[simp] theorem State.consume_display : (s.consume).display = s.display := rfl
@[simp] theorem State.consume_dt : (s.consume).dt = s.dt := rfl
@[simp] theorem State.consume_st : (s.consume).st = s.st := rfl
@[simp] theorem State.consume_keys : (s.consume).keys = s.keys := rfl
@[simp] theorem State.consume_waiting : (s.consume).waiting = s.waiting := rfl
@[simp] theorem State.consume_halted : (s.consume).halted = s.halted := rfl
@[simp] theorem State.consume_faultRecord : (s.consume).faultRecord = s.faultRecord := rfl
@[simp] theorem State.consume_tExecRef : (s.consume).tExecRef = s.tExecRef := rfl
@[simp] theorem State.consume_tTickRef : (s.consume).tTickRef = s.tTickRef := rfl
@[simp] theorem State.consume_params : (s.consume).params = s.params := rfl
@[simp] theorem State.consume_args : (s.consume).args = s.args := rfl
@[simp] theorem State.consume_script : (s.consume).script = s.script.tail := rfl
@[simp] theorem State.consume_draws : (s.consume).draws = s.draws + 1 := rfl

/-! ### `State.tick` -/

@[simp] theorem State.tick_v : s.tick.v = s.v := by unfold State.tick; split <;> rfl
@[simp] theorem State.tick_i : s.tick.i = s.i := by unfold State.tick; split <;> rfl
@[simp] theorem State.tick_pc : s.tick.pc = s.pc := by unfold State.tick; split <;> rfl
@[simp] theorem State.tick_stack : s.tick.stack = s.stack := by unfold State.tick; split <;> rfl
@[simp] theorem State.tick_mem : s.tick.mem = s.mem := by unfold State.tick; split <;> rfl
@[simp] theorem State.tick_display : s.tick.display = s.display := by unfold State.tick; split <;> rfl
@[simp] theorem State.tick_dt : s.tick.dt = if s.tickDue then decrement s.dt else s.dt := by unfold State.tick; split <;> rfl
@[simp] theorem State.tick_st : s.tick.st = if s.tickDue then decrement s.st else s.st := by unfold State.tick; split <;> rfl
@[simp] theorem State.tick_keys : s.tick.keys = s.keys := by unfold State.tick; split <;> rfl
@[simp] theorem State.tick_waiting : s.tick.waiting = s.waiting := by unfold State.tick; split <;> rfl
@[simp] theorem State.tick_halted : s.tick.halted = s.halted := by unfold State.tick; split <;> rfl
@[simp] theorem State.tick_faultRecord : s.tick.faultRecord = s.faultRecord := by unfold State.tick; split <;> rfl
@[simp] theorem State.tick_tExecRef : s.tick.tExecRef = s.tExecRef := by unfold State.tick; split <;> rfl
@[simp] theorem State.tick_tTickRef : s.tick.tTickRef = if s.tickDue then s.args.timeOr s.tTickRef else s.tTickRef := by unfold State.tick; split <;> rfl
@[simp] theorem State.tick_params : s.tick.params = s.params := by unfold State.tick; split <;> rfl
@[simp] theorem State.tick_args : s.tick.args = s.args := by unfold State.tick; split <;> rfl
@[simp] theorem State.tick_script : s.tick.script = s.script := by unfold State.tick; split <;> rfl
@[simp] theorem State.tick_draws : s.tick.draws = s.draws := by unfold State.tick; split <;> rfl

/-! ### `State.resetAt` -/

@[simp] theorem State.resetAt_v (now : Time) : (s.resetAt now).v = State.reset.v := rfl
@[simp] theorem State.resetAt_i (now : Time) : (s.resetAt now).i = State.reset.i := rfl
@[simp] theorem State.resetAt_pc (now : Time) : (s.resetAt now).pc = State.reset.pc := rfl
@[simp] theorem State.resetAt_stack (now : Time) : (s.resetAt now).stack = State.reset.stack := rfl
@[simp] theorem State.resetAt_mem (now : Time) : (s.resetAt now).mem = State.reset.mem := rfl
@[simp] theorem State.resetAt_display (now : Time) : (s.resetAt now).display = State.reset.display := rfl
@[simp] theorem State.resetAt_dt (now : Time) : (s.resetAt now).dt = State.reset.dt := rfl
@[simp] theorem State.resetAt_st (now : Time) : (s.resetAt now).st = State.reset.st := rfl
@[simp] theorem State.resetAt_keys (now : Time) : (s.resetAt now).keys = State.reset.keys := rfl
@[simp] theorem State.resetAt_waiting (now : Time) : (s.resetAt now).waiting = State.reset.waiting := rfl
@[simp] theorem State.resetAt_halted (now : Time) : (s.resetAt now).halted = State.reset.halted := rfl
@[simp] theorem State.resetAt_faultRecord (now : Time) : (s.resetAt now).faultRecord = State.reset.faultRecord := rfl
@[simp] theorem State.resetAt_tExecRef (now : Time) : (s.resetAt now).tExecRef = now := rfl
@[simp] theorem State.resetAt_tTickRef (now : Time) : (s.resetAt now).tTickRef = now := rfl
@[simp] theorem State.resetAt_params (now : Time) : (s.resetAt now).params = s.params := rfl
@[simp] theorem State.resetAt_args (now : Time) : (s.resetAt now).args = s.args := rfl
@[simp] theorem State.resetAt_script (now : Time) : (s.resetAt now).script = s.script := rfl
@[simp] theorem State.resetAt_draws (now : Time) : (s.resetAt now).draws = s.draws := rfl

end Sys2Proof.Machine
end

