-- ==== Sys2Proof/Laws/Registers.lean ====
section
/-! SUPPORT. Registers, the call stack, keys and the operand forms: one lemma for each read after each write. -/

namespace Sys2Proof.Machine

variable (s : State)

theorem State.readV_setV (x y : Reg) (b : Byte) : (s.setV x b).readV y = if y = x then b else s.readV y := by
  simp [State.readV, Vector.getElem_set, Fin.ext_iff, eq_comm]

@[simp] theorem State.readV_setV_self (x : Reg) (b : Byte) : (s.setV x b).readV x = b := by
  simp [State.readV_setV]

theorem State.readV_setV_of_ne {x y : Reg} (h : y ≠ x) (b : Byte) : (s.setV x b).readV y = s.readV y := by
  simp [State.readV_setV, h]

/-- The flag is the final register write (R33). -/
theorem State.readV_setVFlag (x y : Reg) (r f : Byte) :
    (s.setVFlag x r f).readV y = if y = vf then f else if y = x then r else s.readV y := by
  unfold State.setVFlag; simp only [State.readV_setV]

@[simp] theorem State.readV_setVFlag_vf (x : Reg) (r f : Byte) : (s.setVFlag x r f).readV vf = f := by
  simp [State.readV_setVFlag]

theorem getElem_writeRegs (bytes : List Byte) :
    ∀ (k : Nat) (v : Vector Byte 16) (y : Nat) (hy : y < 16),
      (writeRegs bytes k v)[y] = if k ≤ y ∧ y < k + bytes.length then bytes.getD (y - k) 0#8 else v[y] := by
  induction bytes with
  | nil => intro k v y hy; rw [if_neg (by simp)]; rfl
  | cons b bytes ih =>
    intro k v y hy
    rw [writeRegs, ih, Vector.getElem_setIfInBounds]
    simp only [List.length_cons]
    rcases Nat.lt_trichotomy y k with h | rfl | h
    · rw [if_neg (by omega), if_neg (by omega), if_neg (by omega)]
    · rw [if_neg (by omega), if_pos rfl, if_pos (by omega)]; simp
    · have hs : y - k = (y - (k + 1)) + 1 := by omega
      by_cases hin : y < k + (bytes.length + 1)
      · rw [if_pos (by omega), if_pos (by omega), hs, List.getD_cons_succ]
      · rw [if_neg (by omega), if_neg (by omega), if_neg (by omega)]

/-- Every register below the length of the list is its byte, and every other register is as before (R187). -/
theorem State.readV_setVs (bytes : List Byte) (y : Reg) :
    (s.setVs bytes).readV y = bytes.getD y.val (s.readV y) := by
  show (writeRegs bytes 0 s.v)[y.val] = _
  rw [getElem_writeRegs]
  by_cases h : y.val < bytes.length
  · rw [if_pos (by omega), Nat.sub_zero, List.getD_eq_getElem _ _ h, List.getD_eq_getElem _ _ h]
  · rw [if_neg (by omega), List.getD_eq_default _ _ (Nat.le_of_not_lt h)]; rfl

@[simp] theorem State.key_setKey (k j : KeyId) (b : Bool) :
    (s.setKey k b).key j = if j = k then b else s.key j := by
  simp [State.key, Vector.getElem_set, Fin.ext_iff, eq_comm]

/-- `LowestKey()` is undefined exactly when no key is pressed (R45). -/
theorem State.lowestKey_eq_none : s.lowestKey = none ↔ ∀ k, s.key k = false := by
  simp [State.lowestKey, List.find?_eq_none]

/-- `LowestKey()` is pressed, and no lower key is (R45). -/
theorem State.lowestKey_eq_some {k : KeyId} (h : s.lowestKey = some k) :
    s.key k = true ∧ ∀ j < k, s.key j = false := by
  unfold State.lowestKey at h
  refine ⟨List.find?_some h, fun j hj => ?_⟩
  obtain ⟨-, as, bs, hl, has⟩ := List.find?_eq_some_iff_append.mp h
  have hsorted : (as ++ k :: bs).Pairwise (· < ·) := hl ▸ List.pairwise_lt_finRange 16
  have hmem : j ∈ as ++ k :: bs := hl ▸ List.mem_finRange j
  rcases List.mem_append.mp hmem with hj' | hj'
  · simpa using has j hj'
  · have := (List.pairwise_append.mp hsorted).2.1
    rcases List.mem_cons.mp hj' with rfl | hj'
    · exact absurd hj (lt_irrefl _)
    · exact absurd ((List.pairwise_cons.mp this).1 j hj') (not_lt.mpr hj.le)

/-! ### Call stack -/

theorem State.push_of_lt (h : s.sp < 16) (a : Addr) : s.push a = some { s with stack := a :: s.stack } := by
  unfold State.push; rw [if_pos h]

theorem State.push_of_full (h : 16 ≤ s.sp) (a : Addr) : s.push a = none := by
  unfold State.push; rw [if_neg (Nat.not_lt.mpr h)]

theorem State.push_eq_some {t : State} {a : Addr} (h : s.push a = some t) :
    s.sp < 16 ∧ t = { s with stack := a :: s.stack } := by
  unfold State.push at h
  split at h
  · exact ⟨‹_›, (Option.some.inj h).symm⟩
  · cases h

theorem State.pop_eq_none : s.pop = none ↔ s.sp = 0 := by
  unfold State.pop State.sp
  cases s.stack <;> simp

theorem State.pop_eq_some {t : State} {a : Addr} (h : s.pop = some (a, t)) :
    ∃ rest, s.stack = a :: rest ∧ t = { s with stack := rest } := by
  unfold State.pop at h
  split at h
  · cases h
  · rename_i b rest hs; cases h; exact ⟨rest, hs, rfl⟩

/-! ### Operand forms -/

@[simp] theorem toNat_zextNnn (nnn : BitVec 12) : (zextNnn nnn).toNat = nnn.toNat := by
  unfold zextNnn; rw [BitVec.toNat_setWidth]; omega

@[simp] theorem toNat_zextByte (b : Byte) : (zextByte b).toNat = b.toNat := by
  unfold zextByte; rw [BitVec.toNat_setWidth]; omega

@[simp] theorem length_regsUpTo (x : Reg) : (s.regsUpTo x).length = x.val + 1 := by
  simp [State.regsUpTo]

theorem getD_regsUpTo (x : Reg) {j : Reg} (h : j ≤ x) (d : Byte) : (s.regsUpTo x).getD j.val d = s.readV j := by
  have hj : j.val < x.val + 1 := Nat.lt_succ_of_le h
  rw [List.getD_eq_getElem _ _ ((length_regsUpTo s x).symm ▸ hj)]
  unfold State.regsUpTo
  rw [List.getElem_ofFn]
  rfl

theorem index16_eq_none (b : Byte) : index16 b = none ↔ 15 < b.toNat := by
  unfold index16; split <;> simp <;> omega

theorem index16_eq_some (b : Byte) (d : Fin 16) : index16 b = some d ↔ b.toNat = d.val := by
  unfold index16
  split
  · simp [Fin.ext_iff]
  · have := d.isLt; simp; omega

@[simp] theorem length_bcdDigits (b : Byte) : (bcdDigits b).length = 3 := rfl

@[simp] theorem toNat_glyphAddr (d : Fin 16) : (glyphAddr d).toNat = 5 * d.val := by
  have := d.isLt
  unfold glyphAddr; rw [BitVec.toNat_ofNat]; omega

@[simp] theorem toNat_keyByte (k : KeyId) : (keyByte k).toNat = k.val := by
  have := k.isLt
  unfold keyByte; rw [BitVec.toNat_ofNat]; omega

end Sys2Proof.Machine
end

