-- ==== Sys2Proof/Laws/Exec.lean ====
section
/-! SUPPORT. Everything an executed instruction and a step can do, said once: an instruction commits writes and a control effect
or takes a fault, and a step ends in one of five ways (spec/40_step_cycle.md R122, R127, R132, R137). -/

namespace Sys2Proof.Machine

/-- What no instruction writes before its control effect is applied (R9, R10, R128). -/
structure Kept (s w : State) : Prop where
  pc : w.pc = s.pc
  keys : w.keys = s.keys
  waiting : w.waiting = s.waiting
  halted : w.halted = s.halted
  faultRecord : w.faultRecord = s.faultRecord
  tExecRef : w.tExecRef = s.tExecRef
  tTickRef : w.tTickRef = s.tTickRef
  params : w.params = s.params
  args : w.args = s.args
  script : w.script = s.script
  draws : w.draws = s.draws

/-- `Fx65` writes general registers only. -/
theorem kept_setVs (s : State) (bytes : List Byte) : Kept s (s.setVs bytes) :=
  ⟨s.setVs_pc bytes, s.setVs_keys bytes, s.setVs_waiting bytes, s.setVs_halted bytes, s.setVs_faultRecord bytes, s.setVs_tExecRef bytes, s.setVs_tTickRef bytes, s.setVs_params bytes, s.setVs_args bytes, s.setVs_script bytes, s.setVs_draws bytes⟩

/-- The frame of a commit, from what the writes before it leave alone. -/
theorem unchanged_of_commit {f : Footprint} {s w : State} (hk : Kept s w) (e : Effect)
    (regs : ∀ r, r ∉ f.regs → w.readV r = s.readV r)
    (bytes : ∀ a, ¬(f.stored.1 ≤ a ∧ a < f.stored.1 + f.stored.2) → w.readByte a = s.readByte a)
    (i : f.i = false → w.i = s.i) (stack : f.stack = false → w.stack = s.stack)
    (display : f.display = false → w.display = s.display) (dt : f.dt = false → w.dt = s.dt)
    (st : f.st = false → w.st = s.st) : Unchanged f s { w with pc := e.apply w.pc, waiting := e.isWait } :=
  { regs, bytes, i, stack, display, dt, st, keys := hk.keys, halted := hk.halted, faultRecord := hk.faultRecord,
    tExecRef := hk.tExecRef, tTickRef := hk.tTickRef, params := hk.params, args := hk.args, script := hk.script,
    draws := hk.draws }

/-- The frame of an instruction whose only write is `V[x]`. -/
theorem unchanged_setV (s : State) (x : Reg) (b : Byte) (e : Effect) :
    Unchanged { regs := [x] } s { s.setV x b with pc := e.apply s.pc, waiting := e.isWait } :=
  unchanged_of_commit (s := s) (f := { regs := [x] }) (w := s.setV x b) ⟨rfl, rfl, rfl, rfl, rfl, rfl, rfl, rfl, rfl, rfl, rfl⟩ e
    (fun r hr => s.readV_setV_of_ne (by simpa using hr) b) (fun _ _ => rfl) (fun _ => rfl) (fun _ => rfl) (fun _ => rfl)
    (fun _ => rfl) (fun _ => rfl)

/-- The frame of an instruction that writes `V[x]` and then VF as the flag. -/
theorem unchanged_setVFlag (s : State) (x : Reg) (r f : Byte) (e : Effect) :
    Unchanged { regs := [x, vf] } s { s.setVFlag x r f with pc := e.apply s.pc, waiting := e.isWait } :=
  unchanged_of_commit (s := s) (f := { regs := [x, vf] }) (w := s.setVFlag x r f) ⟨rfl, rfl, rfl, rfl, rfl, rfl, rfl, rfl, rfl, rfl, rfl⟩ e
    (fun y hy => by
      simp only [List.mem_cons, List.not_mem_nil, or_false, not_or] at hy
      rw [State.readV_setVFlag, if_neg hy.2, if_neg hy.1])
    (fun _ _ => rfl) (fun _ => rfl) (fun _ => rfl) (fun _ => rfl) (fun _ => rfl) (fun _ => rfl)

/-- The frame of a store inside the address space: every byte outside it is as before. -/
theorem unchanged_stored {s : State} (hm : Memory.wf s.params.font s.mem) (a : Nat) (bytes : List Byte) (e : Effect) :
    Unchanged { stored := (a, bytes.length) } s
      { s with mem := Memory.putAll s.params.font s.mem a bytes, pc := e.apply s.pc, waiting := e.isWait } :=
  unchanged_of_commit (s := s) (f := { stored := (a, bytes.length) })
    (w := { s with mem := Memory.putAll s.params.font s.mem a bytes })
    ⟨rfl, rfl, rfl, rfl, rfl, rfl, rfl, rfl, rfl, rfl, rfl⟩ e (fun _ _ => rfl)
    (fun b hb => (Memory.get_putAll bytes a b hm.1).trans (if_neg hb))
    (fun _ => rfl) (fun _ => rfl) (fun _ => rfl) (fun _ => rfl) (fun _ => rfl)

/-- The frame of `Fx65`: registers above `V[x]` are as before. -/
theorem unchanged_setVs (s : State) (x : Reg) (bytes : List Byte) (hl : bytes.length = x.val + 1) (e : Effect) :
    Unchanged { regs := regsThrough x } s { s.setVs bytes with pc := e.apply (s.setVs bytes).pc, waiting := e.isWait } :=
  unchanged_of_commit (s := s) (f := { regs := regsThrough x }) (kept_setVs s bytes) e
    (fun r hr => by
      have h : x.val < r.val := by simpa [regsThrough] using hr
      rw [State.readV_setVs, List.getD_eq_default _ _ (by rw [hl]; omega)])
    (fun _ _ => rfl) (fun _ => s.setVs_i bytes) (fun _ => s.setVs_stack bytes) (fun _ => s.setVs_display bytes)
    (fun _ => s.setVs_dt bytes) (fun _ => s.setVs_st bytes)

@[simp] theorem commit_eq (s : State) (e : Effect) :
    commit s e = .next { s with pc := e.apply s.pc, waiting := e.isWait } := rfl

@[simp] theorem takeFault_eq (s : State) (i : Instr) (c : Fault) (info : Option Addr) :
    takeFault s i c info = .next (s.enterFault c (encode i) info) := rfl

/-- The two ways `Dxyn` ends. -/
theorem execDrw_cases (x y : Reg) (n : Fin 16) (s : State) :
    (4096 < s.i.toNat + n.val ∧ execDrw x y n s = takeFault s (.drw x y n) .memRange (some s.i)) ∨
    (s.i.toNat + n.val ≤ 4096 ∧ ∃ rows, rows = (List.range n.val).map (fun j => s.readByte (s.i.toNat + j)) ∧
      execDrw x y n s = commit ({ s with
        display := (writeSprite rows (s.readV x).toNat (s.readV y).toNat s.display).1 }.setV vf
          (collisionFlag (writeSprite rows (s.readV x).toNat (s.readV y).toNat s.display).2)) .next) := by
  unfold execDrw
  by_cases h : s.i.toNat + n.val ≤ 4096
  · exact .inr ⟨h, _, rfl, by rw [s.memRead_of_inRange h]⟩
  · exact .inl ⟨by omega, by rw [s.memRead_of_outside (by omega)]⟩

/-- An instruction takes a fault, or commits writes that leave `Kept`'s fields alone and one control effect. -/
theorem exec_cases (i : Instr) (s : State) :
    (∃ c info, exec i s = takeFault s i c info) ∨ (∃ w e, exec i s = commit w e ∧ Kept s w) := by
  have done (w : State) (e : Effect) (h : exec i s = commit w e) (k : Kept s w) :
      (∃ c info, exec i s = takeFault s i c info) ∨ (∃ w e, exec i s = commit w e ∧ Kept s w) :=
    .inr ⟨w, e, h, k⟩
  cases i
  case cls => exact done _ _ rfl ⟨rfl, rfl, rfl, rfl, rfl, rfl, rfl, rfl, rfl, rfl, rfl⟩
  case ret =>
    change (∃ c info, execRet s = takeFault s _ c info) ∨ (∃ w e, execRet s = commit w e ∧ Kept s w)
    unfold execRet
    cases h : s.pop with
    | none => exact .inl ⟨_, _, rfl⟩
    | some p =>
      obtain ⟨rest, -, hw⟩ := State.pop_eq_some s (a := p.1) (t := p.2) h
      exact .inr ⟨p.2, _, rfl, hw ▸ ⟨rfl, rfl, rfl, rfl, rfl, rfl, rfl, rfl, rfl, rfl, rfl⟩⟩
  case jp x => exact done _ _ rfl ⟨rfl, rfl, rfl, rfl, rfl, rfl, rfl, rfl, rfl, rfl, rfl⟩
  case call x =>
    change (∃ c info, execCall x s = takeFault s _ c info) ∨ (∃ w e, execCall x s = commit w e ∧ Kept s w)
    unfold execCall
    cases h : s.push (s.pc + 2#16) with
    | none => exact .inl ⟨_, _, rfl⟩
    | some w => exact .inr ⟨w, _, rfl, (State.push_eq_some s h).2 ▸ ⟨rfl, rfl, rfl, rfl, rfl, rfl, rfl, rfl, rfl, rfl, rfl⟩⟩
  case seImm x y => exact done _ _ rfl ⟨rfl, rfl, rfl, rfl, rfl, rfl, rfl, rfl, rfl, rfl, rfl⟩
  case sneImm x y => exact done _ _ rfl ⟨rfl, rfl, rfl, rfl, rfl, rfl, rfl, rfl, rfl, rfl, rfl⟩
  case seReg x y => exact done _ _ rfl ⟨rfl, rfl, rfl, rfl, rfl, rfl, rfl, rfl, rfl, rfl, rfl⟩
  case ldImm x y => exact done _ _ rfl ⟨rfl, rfl, rfl, rfl, rfl, rfl, rfl, rfl, rfl, rfl, rfl⟩
  case addImm x y => exact done _ _ rfl ⟨rfl, rfl, rfl, rfl, rfl, rfl, rfl, rfl, rfl, rfl, rfl⟩
  case ldReg x y => exact done _ _ rfl ⟨rfl, rfl, rfl, rfl, rfl, rfl, rfl, rfl, rfl, rfl, rfl⟩
  case orReg x y => exact done _ _ rfl ⟨rfl, rfl, rfl, rfl, rfl, rfl, rfl, rfl, rfl, rfl, rfl⟩
  case andReg x y => exact done _ _ rfl ⟨rfl, rfl, rfl, rfl, rfl, rfl, rfl, rfl, rfl, rfl, rfl⟩
  case xorReg x y => exact done _ _ rfl ⟨rfl, rfl, rfl, rfl, rfl, rfl, rfl, rfl, rfl, rfl, rfl⟩
  case addReg x y => exact done _ _ rfl ⟨rfl, rfl, rfl, rfl, rfl, rfl, rfl, rfl, rfl, rfl, rfl⟩
  case subReg x y => exact done _ _ rfl ⟨rfl, rfl, rfl, rfl, rfl, rfl, rfl, rfl, rfl, rfl, rfl⟩
  case shr x y => exact done _ _ rfl ⟨rfl, rfl, rfl, rfl, rfl, rfl, rfl, rfl, rfl, rfl, rfl⟩
  case subnReg x y => exact done _ _ rfl ⟨rfl, rfl, rfl, rfl, rfl, rfl, rfl, rfl, rfl, rfl, rfl⟩
  case shl x y => exact done _ _ rfl ⟨rfl, rfl, rfl, rfl, rfl, rfl, rfl, rfl, rfl, rfl, rfl⟩
  case sneReg x y => exact done _ _ rfl ⟨rfl, rfl, rfl, rfl, rfl, rfl, rfl, rfl, rfl, rfl, rfl⟩
  case ldI x => exact done _ _ rfl ⟨rfl, rfl, rfl, rfl, rfl, rfl, rfl, rfl, rfl, rfl, rfl⟩
  case jpV0 x => exact done _ _ rfl ⟨rfl, rfl, rfl, rfl, rfl, rfl, rfl, rfl, rfl, rfl, rfl⟩
  case rnd x y => exact done _ _ rfl ⟨rfl, rfl, rfl, rfl, rfl, rfl, rfl, rfl, rfl, rfl, rfl⟩
  case drw x y n =>
    rcases execDrw_cases x y n s with ⟨-, h⟩ | ⟨-, rows, -, h⟩
    · exact .inl ⟨_, _, h⟩
    · exact done _ _ h ⟨rfl, rfl, rfl, rfl, rfl, rfl, rfl, rfl, rfl, rfl, rfl⟩
  case skp x =>
    change (∃ c info, execSkp x s = takeFault s _ c info) ∨ (∃ w e, execSkp x s = commit w e ∧ Kept s w)
    unfold execSkp
    cases index16 (s.readV x) with
    | none => exact .inl ⟨_, _, rfl⟩
    | some d => exact .inr ⟨s, _, rfl, ⟨rfl, rfl, rfl, rfl, rfl, rfl, rfl, rfl, rfl, rfl, rfl⟩⟩
  case sknp x =>
    change (∃ c info, execSknp x s = takeFault s _ c info) ∨ (∃ w e, execSknp x s = commit w e ∧ Kept s w)
    unfold execSknp
    cases index16 (s.readV x) with
    | none => exact .inl ⟨_, _, rfl⟩
    | some d => exact .inr ⟨s, _, rfl, ⟨rfl, rfl, rfl, rfl, rfl, rfl, rfl, rfl, rfl, rfl, rfl⟩⟩
  case ldVxDt x => exact done _ _ rfl ⟨rfl, rfl, rfl, rfl, rfl, rfl, rfl, rfl, rfl, rfl, rfl⟩
  case ldVxKey x =>
    change (∃ c info, execLdVxKey x s = takeFault s _ c info) ∨ (∃ w e, execLdVxKey x s = commit w e ∧ Kept s w)
    unfold execLdVxKey
    cases s.lowestKey with
    | none => exact .inr ⟨s, _, rfl, ⟨rfl, rfl, rfl, rfl, rfl, rfl, rfl, rfl, rfl, rfl, rfl⟩⟩
    | some d => exact .inr ⟨_, _, rfl, ⟨rfl, rfl, rfl, rfl, rfl, rfl, rfl, rfl, rfl, rfl, rfl⟩⟩
  case ldDtVx x => exact done _ _ rfl ⟨rfl, rfl, rfl, rfl, rfl, rfl, rfl, rfl, rfl, rfl, rfl⟩
  case ldStVx x => exact done _ _ rfl ⟨rfl, rfl, rfl, rfl, rfl, rfl, rfl, rfl, rfl, rfl, rfl⟩
  case addI x => exact done _ _ rfl ⟨rfl, rfl, rfl, rfl, rfl, rfl, rfl, rfl, rfl, rfl, rfl⟩
  case ldFont x =>
    change (∃ c info, execLdFont x s = takeFault s _ c info) ∨ (∃ w e, execLdFont x s = commit w e ∧ Kept s w)
    unfold execLdFont
    cases index16 (s.readV x) with
    | none => exact .inl ⟨_, _, rfl⟩
    | some d => exact .inr ⟨_, _, rfl, ⟨rfl, rfl, rfl, rfl, rfl, rfl, rfl, rfl, rfl, rfl, rfl⟩⟩
  case ldBcd x =>
    change (∃ c info, execLdBcd x s = takeFault s _ c info) ∨ (∃ w e, execLdBcd x s = commit w e ∧ Kept s w)
    unfold execLdBcd
    cases h : s.memWrite s.i.toNat (bcdDigits (s.readV x)) with
    | none => exact .inl ⟨_, _, rfl⟩
    | some w => exact .inr ⟨w, _, rfl, (State.memWrite_eq_some h).2 ▸ ⟨rfl, rfl, rfl, rfl, rfl, rfl, rfl, rfl, rfl, rfl, rfl⟩⟩
  case storeRegs x =>
    change (∃ c info, execStoreRegs x s = takeFault s _ c info) ∨ (∃ w e, execStoreRegs x s = commit w e ∧ Kept s w)
    unfold execStoreRegs
    cases h : s.memWrite s.i.toNat (s.regsUpTo x) with
    | none => exact .inl ⟨_, _, rfl⟩
    | some w => exact .inr ⟨w, _, rfl, (State.memWrite_eq_some h).2 ▸ ⟨rfl, rfl, rfl, rfl, rfl, rfl, rfl, rfl, rfl, rfl, rfl⟩⟩
  case loadRegs x =>
    change (∃ c info, execLoadRegs x s = takeFault s _ c info) ∨ (∃ w e, execLoadRegs x s = commit w e ∧ Kept s w)
    unfold execLoadRegs
    cases s.memRead s.i.toNat (x.val + 1) with
    | none => exact .inl ⟨_, _, rfl⟩
    | some bytes => exact .inr ⟨s.setVs bytes, .next, rfl, kept_setVs s bytes⟩

/-! ### One event, one step, one way -/

theorem step_of_reset {s : State} {now : Time} (h : s.nextEvent = some (.reset now)) : step s = .next (s.consume.resetAt now) := by
  unfold step; rw [h]; rfl

theorem step_of_step {s : State} {args : StepArgs} (h : s.nextEvent = some (.step args)) :
    step s = cycle { s.consume with args := args } := by
  unfold step; rw [h]; rfl

theorem step_of_none {s : State} (h : s.nextEvent = none) : step s = .next s.consume := by
  unfold step; rw [h]

/-- A free choice of the host is never an event it must not issue, so only the script can hold one. -/
theorem State.nextEvent_of_illFormed {s : State} {e : Event} (h : s.nextEvent = some e) (hw : e.wellFormed = false) :
    ∃ rest, s.script = e :: rest := by
  unfold State.nextEvent at h
  split at h
  · rename_i rest hs
    cases h
    exact ⟨rest, hs⟩
  · obtain ⟨-, hw'⟩ := Option.filter_eq_some_iff.mp h
    rw [hw] at hw'
    cases hw'

theorem perform_loadRom_fits (s : State) {bytes : List Byte} (h : bytes.length ≤ 3584) :
    perform (.loadRom bytes) s = .next { s with mem := Memory.putAll s.params.font s.mem 0x200 bytes } := by
  have hw := s.memWrite_of_inRange (show 0x200 + bytes.length ≤ 4096 by omega)
  have hf : romFits bytes = true := by simpa [romFits] using h
  simp only [perform, loadRom, if_pos hf, hw]

theorem perform_loadRom_long (s : State) {bytes : List Byte} (h : 3584 < bytes.length) :
    perform (.loadRom bytes) s = .refused .romTooLong := by
  simp [perform, loadRom, romFits, h]

theorem cycle_of_halted {s : State} (h : s.halted = true) : cycle s = .next s := by
  unfold cycle; rw [if_pos h]

theorem cycle_of_limited {s : State} (h : s.halted = false) (he : s.execDue = false) : cycle s = .next s.tick := by
  unfold cycle; rw [h, he]; rfl

theorem cycle_of_noFetch {s : State} (h : s.halted = false) (he : s.execDue = true) (hf : s.fetch = none) :
    cycle s = .next s.fetchFault := by
  unfold cycle; rw [h, he, hf]; rfl

theorem cycle_of_illegal {s : State} {op : Opcode} {r : Reject} (h : s.halted = false) (he : s.execDue = true)
    (hf : s.fetch = some op) (hd : decodeWord op = .error r) : cycle s = .next (s.decodeFault op) := by
  simp [cycle, h, he, hf, hd]

theorem cycle_of_decoded {s : State} {op : Opcode} {i : Instr} (h : s.halted = false) (he : s.execDue = true)
    (hf : s.fetch = some op) (hd : decodeWord op = .ok i) : cycle s = mapNext State.finishExecuted (exec i s) := by
  simp [cycle, h, he, hf, hd]

/-- The ways a `Step` with the arguments in `s` ends (R137): halted, rate-limited, a fault of the fetch, a fault of the decode, a
fault of the instruction, or an instruction executed and the tick. -/
inductive CycleEnds (s : State) : State → Prop where
  | halted (h : s.halted = true) : CycleEnds s s
  | limited (h : s.halted = false) (he : s.execDue = false) : CycleEnds s s.tick
  | fetchFault (h : s.halted = false) (he : s.execDue = true) (hf : s.fetch = none) : CycleEnds s s.fetchFault
  | decodeFault (h : s.halted = false) (he : s.execDue = true) (op : Opcode) (r : Reject) (hf : s.fetch = some op)
      (hd : decodeWord op = .error r) : CycleEnds s (s.decodeFault op)
  | execFault (h : s.halted = false) (he : s.execDue = true) (op : Opcode) (i : Instr) (hf : s.fetch = some op)
      (hd : decodeWord op = .ok i) (c : Fault) (info : Option Addr) (hx : exec i s = takeFault s i c info) :
      CycleEnds s (s.enterFault c (encode i) info)
  | executed (h : s.halted = false) (he : s.execDue = true) (op : Opcode) (i : Instr) (hf : s.fetch = some op)
      (hd : decodeWord op = .ok i) (w : State) (e : Effect) (hx : exec i s = commit w e) (hk : Kept s w) :
      CycleEnds s ({ w with pc := e.apply w.pc, waiting := e.isWait }.markExecuted.tick)

/-- Every `Step` ends, in a next state, in one of the ways of `CycleEnds` (R133, R137). -/
theorem cycle_ends (s : State) : ∃ t, cycle s = .next t ∧ CycleEnds s t := by
  unfold cycle
  cases h : s.halted with
  | true => exact ⟨s, rfl, .halted h⟩
  | false =>
    cases he : s.execDue with
    | false => exact ⟨_, rfl, .limited h he⟩
    | true =>
      simp only [Bool.false_eq_true, if_false, if_true]
      cases hf : s.fetch with
      | none => exact ⟨_, rfl, .fetchFault h he hf⟩
      | some op =>
        simp only
        cases hd : decodeWord op with
        | error r => exact ⟨_, rfl, .decodeFault h he op r hf hd⟩
        | ok i =>
          simp only
          rcases exec_cases i s with ⟨c, info, hx⟩ | ⟨w, e, hx, hk⟩
          · rw [hx]; exact ⟨_, rfl, .execFault h he op i hf hd c info hx⟩
          · refine ⟨_, ?_, .executed h he op i hf hd w e hx hk⟩
            have hw : w.halted = false := hk.halted.trans h
            rw [hx, commit_eq]
            simp [mapNext, State.finishExecuted, hw]

/-- The ways a transition answers a next state, by what the host does next (R121). -/
inductive StepEnds (s : State) : State → Prop where
  | idle (he : s.nextEvent = none) : StepEnds s s.consume
  | reset (now : Time) (he : s.nextEvent = some (.reset now)) : StepEnds s (s.consume.resetAt now)
  | loadRom (bytes : List Byte) (he : s.nextEvent = some (.loadRom bytes)) (hl : bytes.length ≤ 3584) :
      StepEnds s { s.consume with mem := Memory.putAll s.params.font s.mem 0x200 bytes }
  | key (k : KeyId) (b : Bool) (he : s.nextEvent = some (if b then .keyDown k.val else .keyUp k.val)) :
      StepEnds s (s.consume.setKey k b)
  | step (args : StepArgs) (he : s.nextEvent = some (.step args)) (t : State)
      (hc : CycleEnds { s.consume with args := args } t) : StepEnds s t

/-- Every transition that answers a next state ends in one of the ways of `StepEnds`. -/
theorem step_ends {s t : State} (h : step s = .next t) : StepEnds s t := by
  unfold step at h
  rcases he : s.nextEvent with - | e
  · rw [he] at h; cases h; exact .idle he
  rw [he] at h
  simp only [perform] at h
  cases e with
  | reset now => cases h; exact .reset now he
  | loadRom bytes =>
    simp only [loadRom] at h
    split at h
    · rename_i hl
      have hlen : bytes.length ≤ 3584 := by simpa [romFits] using hl
      rw [State.memWrite_of_inRange _ (show 0x200 + bytes.length ≤ 4096 by omega)] at h
      cases h
      exact .loadRom bytes he hlen
    · cases h
  | keyDown k =>
    simp only [keyEdge] at h
    split at h
    · cases h; exact .key ⟨k, ‹_›⟩ true (by simpa using he)
    · cases h
  | keyUp k =>
    simp only [keyEdge] at h
    split at h
    · cases h; exact .key ⟨k, ‹_›⟩ false (by simpa using he)
    · cases h
  | step args =>
    obtain ⟨t', hc, hends⟩ := cycle_ends { s.consume with args := args }
    simp only at h
    rw [hc] at h
    cases h
    exact .step args he _ hends

/-- No instruction reads how the host says what is due (R124, R238). -/
theorem exec_withDue (i : Instr) (s : State) (d : Due) :
    exec i { s with args := { s.args with due := d } } =
      mapNext (fun t => { t with args := { t.args with due := d } }) (exec i s) := by
  cases i
  case ret => show execRet _ = mapNext _ (execRet s); unfold execRet State.pop; obtain ⟨v, i, pc, stack, _⟩ := s; cases stack <;> rfl
  case call n =>
    show execCall _ _ = mapNext _ (execCall _ s)
    by_cases h : s.sp < 16
    · unfold execCall; rw [s.push_of_lt h, State.push_of_lt _ (by exact h)]; rfl
    · have h := Nat.le_of_not_lt h
      unfold execCall; rw [s.push_of_full h, State.push_of_full _ (by exact h)]; rfl
  case drw x y n =>
    show execDrw _ _ _ _ = mapNext _ (execDrw _ _ _ s)
    unfold execDrw
    by_cases h : s.i.toNat + n.val ≤ 4096
    · rw [s.memRead_of_inRange h, State.memRead_of_inRange _ (by exact h)]; rfl
    · have h := Nat.lt_of_not_le h
      rw [s.memRead_of_outside h, State.memRead_of_outside _ (by exact h)]; rfl
  case ldBcd x =>
    show execLdBcd _ _ = mapNext _ (execLdBcd _ s)
    unfold execLdBcd
    by_cases h : s.i.toNat + (bcdDigits (s.readV x)).length ≤ 4096
    · rw [s.memWrite_of_inRange h, State.memWrite_of_inRange _ (by exact h)]; rfl
    · have h := Nat.lt_of_not_le h
      rw [s.memWrite_of_outside h, State.memWrite_of_outside _ (by exact h)]; rfl
  case storeRegs x =>
    show execStoreRegs _ _ = mapNext _ (execStoreRegs _ s)
    unfold execStoreRegs
    by_cases h : s.i.toNat + (s.regsUpTo x).length ≤ 4096
    · rw [s.memWrite_of_inRange h, State.memWrite_of_inRange _ (by exact h)]; rfl
    · have h := Nat.lt_of_not_le h
      rw [s.memWrite_of_outside h, State.memWrite_of_outside _ (by exact h)]; rfl
  case loadRegs x =>
    show execLoadRegs _ _ = mapNext _ (execLoadRegs _ s)
    unfold execLoadRegs
    by_cases h : s.i.toNat + (x.val + 1) ≤ 4096
    · rw [s.memRead_of_inRange h, State.memRead_of_inRange _ (by exact h)]; rfl
    · have h := Nat.lt_of_not_le h
      rw [s.memRead_of_outside h, State.memRead_of_outside _ (by exact h)]; rfl
  case skp x =>
    show execSkp _ _ = mapNext _ (execSkp _ s)
    unfold execSkp
    show (match index16 (s.readV x) with | none => _ | some k => _) = _
    cases index16 (s.readV x) <;> rfl
  case sknp x =>
    show execSknp _ _ = mapNext _ (execSknp _ s)
    unfold execSknp
    show (match index16 (s.readV x) with | none => _ | some k => _) = _
    cases index16 (s.readV x) <;> rfl
  case ldFont x =>
    show execLdFont _ _ = mapNext _ (execLdFont _ s)
    unfold execLdFont
    show (match index16 (s.readV x) with | none => _ | some k => _) = _
    cases index16 (s.readV x) <;> rfl
  case ldVxKey x =>
    show execLdVxKey _ _ = mapNext _ (execLdVxKey _ s)
    unfold execLdVxKey
    show (match s.lowestKey with | none => _ | some k => _) = _
    cases s.lowestKey <;> rfl
  all_goals rfl

/-- What holds of every start and is kept by every transition holds of every reachable state. -/
theorem reachable_induction {P : State → Prop} (start : ∀ s, s.Start → P s)
    (keep : ∀ s t, P s → step s = .next t → P t) {s : State} (h : Reachable s) : P s := by
  induction h with
  | start h => exact start _ h
  | step _ h ih => exact keep _ _ ih h

end Sys2Proof.Machine
end

