-- ==== Sys2Proof/Laws/PerInstr.lean ====
section
/-! SUPPORT. The statements made of every instruction, one lemma per constructor. `EncodeMatch`: the word of an instruction
selects its own row of the opcode map, `op & mask = match` (spec/30_encoding.md R103). -/

namespace Sys2Proof.Laws.EncodeMatch

/-- The word of the instruction matches its row of R103. -/
def Statement (i : Instr) : Prop := encode i &&& maskOf i = matchOf i

theorem nnn_and (opc : BitVec 4) (nnn : BitVec 12) : encodeNnn opc nnn &&& 0xF000#16 = encodeNnn opc 0 := by
  refine BitVec.eq_of_getLsbD_eq fun i hi => ?_
  rw [BitVec.getLsbD_and, getLsbD_nnn, getLsbD_nnn]
  interval_cases i <;> simp

theorem xkk_and_F000 (opc : BitVec 4) (x : Reg) (kk : Byte) :
    encodeXkk opc x kk &&& 0xF000#16 = encodeXkk opc 0 0 := by
  refine BitVec.eq_of_getLsbD_eq fun i hi => ?_
  rw [BitVec.getLsbD_and, getLsbD_xkk, getLsbD_xkk]
  interval_cases i <;> simp [nibble]

theorem xkk_and_F0FF (opc : BitVec 4) (x : Reg) (kk : Byte) :
    encodeXkk opc x kk &&& 0xF0FF#16 = encodeXkk opc 0 kk := by
  refine BitVec.eq_of_getLsbD_eq fun i hi => ?_
  rw [BitVec.getLsbD_and, getLsbD_xkk, getLsbD_xkk]
  interval_cases i <;> simp [nibble]

theorem xyn_and_F00F (opc : BitVec 4) (x y : Reg) (n : BitVec 4) :
    encodeXyn opc x y n &&& 0xF00F#16 = encodeXyn opc 0 0 n := by
  refine BitVec.eq_of_getLsbD_eq fun i hi => ?_
  rw [BitVec.getLsbD_and, getLsbD_xyn, getLsbD_xyn]
  interval_cases i <;> simp [nibble]

theorem xyn_and_F000 (opc : BitVec 4) (x y : Reg) (n : BitVec 4) :
    encodeXyn opc x y n &&& 0xF000#16 = encodeXyn opc 0 0 0 := by
  refine BitVec.eq_of_getLsbD_eq fun i hi => ?_
  rw [BitVec.getLsbD_and, getLsbD_xyn, getLsbD_xyn]
  interval_cases i <;> simp [nibble]

theorem cls : Statement (.cls) := rfl

theorem ret : Statement (.ret) := rfl

theorem jp (nnn : BitVec 12) : Statement (.jp nnn) := (nnn_and _ nnn).trans rfl

theorem call (nnn : BitVec 12) : Statement (.call nnn) := (nnn_and _ nnn).trans rfl

theorem seImm (x : Reg) (kk : Byte) : Statement (.seImm x kk) := (xkk_and_F000 _ x kk).trans rfl

theorem sneImm (x : Reg) (kk : Byte) : Statement (.sneImm x kk) := (xkk_and_F000 _ x kk).trans rfl

theorem seReg (x y : Reg) : Statement (.seReg x y) := (xyn_and_F00F _ x y _).trans rfl

theorem ldImm (x : Reg) (kk : Byte) : Statement (.ldImm x kk) := (xkk_and_F000 _ x kk).trans rfl

theorem addImm (x : Reg) (kk : Byte) : Statement (.addImm x kk) := (xkk_and_F000 _ x kk).trans rfl

theorem ldReg (x y : Reg) : Statement (.ldReg x y) := (xyn_and_F00F _ x y _).trans rfl

theorem orReg (x y : Reg) : Statement (.orReg x y) := (xyn_and_F00F _ x y _).trans rfl

theorem andReg (x y : Reg) : Statement (.andReg x y) := (xyn_and_F00F _ x y _).trans rfl

theorem xorReg (x y : Reg) : Statement (.xorReg x y) := (xyn_and_F00F _ x y _).trans rfl

theorem addReg (x y : Reg) : Statement (.addReg x y) := (xyn_and_F00F _ x y _).trans rfl

theorem subReg (x y : Reg) : Statement (.subReg x y) := (xyn_and_F00F _ x y _).trans rfl

theorem shr (x y : Reg) : Statement (.shr x y) := (xyn_and_F00F _ x y _).trans rfl

theorem subnReg (x y : Reg) : Statement (.subnReg x y) := (xyn_and_F00F _ x y _).trans rfl

theorem shl (x y : Reg) : Statement (.shl x y) := (xyn_and_F00F _ x y _).trans rfl

theorem sneReg (x y : Reg) : Statement (.sneReg x y) := (xyn_and_F00F _ x y _).trans rfl

theorem ldI (nnn : BitVec 12) : Statement (.ldI nnn) := (nnn_and _ nnn).trans rfl

theorem jpV0 (nnn : BitVec 12) : Statement (.jpV0 nnn) := (nnn_and _ nnn).trans rfl

theorem rnd (x : Reg) (kk : Byte) : Statement (.rnd x kk) := (xkk_and_F000 _ x kk).trans rfl

theorem drw (x y : Reg) (n : Fin 16) : Statement (.drw x y n) := (xyn_and_F000 _ x y (nibble n)).trans rfl

theorem skp (x : Reg) : Statement (.skp x) := (xkk_and_F0FF _ x _).trans rfl

theorem sknp (x : Reg) : Statement (.sknp x) := (xkk_and_F0FF _ x _).trans rfl

theorem ldVxDt (x : Reg) : Statement (.ldVxDt x) := (xkk_and_F0FF _ x _).trans rfl

theorem ldVxKey (x : Reg) : Statement (.ldVxKey x) := (xkk_and_F0FF _ x _).trans rfl

theorem ldDtVx (x : Reg) : Statement (.ldDtVx x) := (xkk_and_F0FF _ x _).trans rfl

theorem ldStVx (x : Reg) : Statement (.ldStVx x) := (xkk_and_F0FF _ x _).trans rfl

theorem addI (x : Reg) : Statement (.addI x) := (xkk_and_F0FF _ x _).trans rfl

theorem ldFont (x : Reg) : Statement (.ldFont x) := (xkk_and_F0FF _ x _).trans rfl

theorem ldBcd (x : Reg) : Statement (.ldBcd x) := (xkk_and_F0FF _ x _).trans rfl

theorem storeRegs (x : Reg) : Statement (.storeRegs x) := (xkk_and_F0FF _ x _).trans rfl

theorem loadRegs (x : Reg) : Statement (.loadRegs x) := (xkk_and_F0FF _ x _).trans rfl

end Sys2Proof.Laws.EncodeMatch
end

