-- ==== Sys2Proof/Laws/Rows.lean ====
section
/-! SUPPORT. From the masked bits of a word to its fields, and from its fields to what the decoder answers: how a row of the opcode
map is read (spec/30_encoding.md R95, R103). -/

namespace Sys2Proof

theorem fieldN3_and (a b : Opcode) : fieldN3 (a &&& b) = fieldN3 a &&& fieldN3 b := by
  refine BitVec.eq_of_getLsbD_eq fun i hi => ?_
  simp [fieldN3, hi]

theorem fieldN0_and (a b : Opcode) : fieldN0 (a &&& b) = fieldN0 a &&& fieldN0 b := by
  refine BitVec.eq_of_getLsbD_eq fun i hi => ?_
  simp [fieldN0, hi]

theorem fieldKk_and (a b : Opcode) : fieldKk (a &&& b) = fieldKk a &&& fieldKk b := by
  refine BitVec.eq_of_getLsbD_eq fun i hi => ?_
  simp [fieldKk, hi]

/-- A mask that covers the leading nibble fixes it. -/
theorem fieldN3_of_masked {op mask m : Opcode} (h : op &&& mask = m) (hm : fieldN3 mask = 0xF#4) :
    fieldN3 op = fieldN3 m := by
  rw [← h, fieldN3_and, hm]; generalize fieldN3 op = z; revert z; decide

/-- A mask that covers the trailing nibble fixes it. -/
theorem fieldN0_of_masked {op mask m : Opcode} (h : op &&& mask = m) (hm : fieldN0 mask = 0xF#4) :
    fieldN0 op = fieldN0 m := by
  rw [← h, fieldN0_and, hm]; generalize fieldN0 op = z; revert z; decide

/-- A mask that covers the low byte fixes it. -/
theorem fieldKk_of_masked {op mask m : Opcode} (h : op &&& mask = m) (hm : fieldKk mask = 0xFF#8) :
    fieldKk op = fieldKk m := by
  rw [← h, fieldKk_and, hm]; generalize fieldKk op = z; revert z; decide

/-- The one leading nibble the last arm of `decodeWord` is for. -/
theorem nibble_left (z : BitVec 4) (h : ∀ k : Fin 15, z ≠ BitVec.ofNat 4 k.val) : z = 0xF#4 := by
  revert z; decide

end Sys2Proof

namespace Sys2Proof.Machine

/-- A row whose mask is the leading nibble. -/
theorem encodes_of_n3 {m : Opcode} {instr : Opcode → Instr} (n : BitVec 4) (hm : fieldN3 m = n)
    (hd : ∀ op, fieldN3 op = n → decodeWord op = .ok (instr op)) : Encodes 0xF000#16 m instr :=
  fun op h => hd op ((fieldN3_of_masked h (by decide)).trans hm)

/-- A row whose mask is the leading and the trailing nibble. -/
theorem encodes_of_n3_n0 {m : Opcode} {instr : Opcode → Instr} (n n0 : BitVec 4) (hm : fieldN3 m = n) (hm0 : fieldN0 m = n0)
    (hd : ∀ op, fieldN3 op = n → fieldN0 op = n0 → decodeWord op = .ok (instr op)) : Encodes 0xF00F#16 m instr :=
  fun op h => hd op ((fieldN3_of_masked h (by decide)).trans hm) ((fieldN0_of_masked h (by decide)).trans hm0)

/-- A row whose mask is the leading nibble and the low byte. -/
theorem encodes_of_n3_kk {m : Opcode} {instr : Opcode → Instr} (n : BitVec 4) (k : Byte) (hm : fieldN3 m = n)
    (hmk : fieldKk m = k) (hd : ∀ op, fieldN3 op = n → fieldKk op = k → decodeWord op = .ok (instr op)) :
    Encodes 0xF0FF#16 m instr :=
  fun op h => hd op ((fieldN3_of_masked h (by decide)).trans hm) ((fieldKk_of_masked h (by decide)).trans hmk)

/-- A row of one word. -/
theorem encodes_of_word {m : Opcode} {instr : Opcode → Instr} (hd : decodeWord m = .ok (instr m)) :
    Encodes 0xFFFF#16 m instr := fun op h => by
  have h' : op = m := by rw [← h]; exact (BitVec.and_allOnes (x := op)).symm
  rw [h']; exact hd

end Sys2Proof.Machine
end

