-- ==== Sys2Proof/Tests/Slice0.lean ====
section
/-! SUPPORT. The model's own tests: each expected result is a vector of spec/95_test_vectors.md (named by its id) or the example of
the rule named, never the model's own answer; and for every obligation with hypotheses a concrete state and operands that meet
them all, at the boundary of each range. -/

open Sys2Proof Sys2Proof.Machine

namespace Sys2Proof.Tests

/-! ### Helpers -/

/-- Registers set in the state after reset. -/
def regs (vs : List (Reg × Byte)) : State := vs.foldl (fun s p => s.setV p.1 p.2) State.reset

/-- Bytes stored in a state. -/
def poke (s : State) (a : Nat) (bytes : List Byte) : State := { s with mem := Memory.putAll s.params.font s.mem a bytes }

/-- The outcome is a next state that passes a check. -/
def nextIs (r : Result) (check : State → Bool) : Bool :=
  match r with
  | .next t => check t
  | .fault _ => false
  | .refused _ => false

/-- One step over the word `w` stored where the step fetches, and a check of the next state. -/
def run (w : Nat) (s : State) (check : State → Bool) : Bool := nextIs (step (s.withFetchWord 16 w)) check

/-- One event, and a check of the next state. -/
def event (e : Event) (s : State) (check : State → Bool) : Bool := nextIs (perform e s) check

/-- The host's next event is a `Step` with these arguments. -/
def due (s : State) (execDue tickDue : Bool) (rnd : Byte) : State := { s with script := [.step ⟨.flags execDue tickDue, rnd⟩] }

/-- A halted state with this cause. -/
def halts (c : Fault) (pc : Addr) (t : State) : Bool :=
  t.halted && t.faultRecord.cause == some c && t.faultRecord.pc == pc && t.pc == pc

/-! ### Well-formedness: each check refuses an ill-formed event (U19, U20 of spec/93_implementation_defined.md) -/

theorem test_wellFormed_long_rom : romFits (List.replicate 3585 0x00#8) = false := by
  rw [romFits, List.length_replicate]; rfl
theorem test_wellFormed_longest_rom : romFits (List.replicate 3584 0x00#8) = true := by
  rw [romFits, List.length_replicate]; rfl
theorem test_wellFormed_key_16 : (Event.keyDown 16).wellFormed = false ∧ (Event.keyUp 16).wellFormed = false := by decide
theorem test_wellFormed_key_15 : (Event.keyDown 15).wellFormed = true := by decide
theorem test_key_16_is_refused : perform (.keyDown 16) State.reset = .refused .keyIdRange := rfl

/-! ### Decoding: a word of every constructor, from the patterns of R103 and the vectors E2 to E4 -/

theorem test_decode_00E0 : decodeTableWord 16 0x00E0 = some .cls := by decide
theorem test_decode_00EE : decodeTableWord 16 0x00EE = some .ret := by decide
theorem test_decode_1nnn : decodeTableWord 16 0x1204 = some (.jp 0x204) := by decide
theorem test_decode_2nnn : decodeTableWord 16 0x220A = some (.call 0x20A) := by decide
theorem test_decode_3xkk : decodeTableWord 16 0x3F01 = some (.seImm 15 0x01) := by decide
theorem test_decode_4xkk : decodeTableWord 16 0x4A10 = some (.sneImm 10 0x10) := by decide
theorem test_decode_5xy0 : decodeTableWord 16 0x5120 = some (.seReg 1 2) := by decide
theorem test_decode_6xkk : decodeTableWord 16 0x6A2F = some (.ldImm 10 0x2F) := by decide
theorem test_decode_7xkk : decodeTableWord 16 0x700A = some (.addImm 0 0x0A) := by decide
theorem test_decode_family8 :
    decodeTableWord 16 0x8AB0 = some (.ldReg 10 11) ∧ decodeTableWord 16 0x8AB1 = some (.orReg 10 11) ∧
    decodeTableWord 16 0x8AB2 = some (.andReg 10 11) ∧ decodeTableWord 16 0x8AB3 = some (.xorReg 10 11) ∧
    decodeTableWord 16 0x8AB4 = some (.addReg 10 11) ∧ decodeTableWord 16 0x8AB5 = some (.subReg 10 11) ∧
    decodeTableWord 16 0x8AB6 = some (.shr 10 11) ∧ decodeTableWord 16 0x8AB7 = some (.subnReg 10 11) ∧
    decodeTableWord 16 0x8ABE = some (.shl 10 11) := by decide
theorem test_decode_9xy0 : decodeTableWord 16 0x9120 = some (.sneReg 1 2) := by decide
theorem test_decode_Annn : decodeTableWord 16 0xA300 = some (.ldI 0x300) := by decide
theorem test_decode_Bnnn : decodeTableWord 16 0xBFFF = some (.jpV0 0xFFF) := by decide
theorem test_decode_Cxkk : decodeTableWord 16 0xC30F = some (.rnd 3 0x0F) := by decide
theorem test_decode_Dxyn : decodeTableWord 16 0xD7A9 = some (.drw 7 10 9) := by decide
theorem test_decode_familyE :
    decodeTableWord 16 0xEA9E = some (.skp 10) ∧ decodeTableWord 16 0xEAA1 = some (.sknp 10) := by decide
theorem test_decode_familyF :
    decodeTableWord 16 0xFA07 = some (.ldVxDt 10) ∧ decodeTableWord 16 0xFA0A = some (.ldVxKey 10) ∧
    decodeTableWord 16 0xFA15 = some (.ldDtVx 10) ∧ decodeTableWord 16 0xFA18 = some (.ldStVx 10) ∧
    decodeTableWord 16 0xFA1E = some (.addI 10) ∧ decodeTableWord 16 0xFA29 = some (.ldFont 10) ∧
    decodeTableWord 16 0xFA33 = some (.ldBcd 10) ∧ decodeTableWord 16 0xFA55 = some (.storeRegs 10) ∧
    decodeTableWord 16 0xFA65 = some (.loadRegs 10) := by decide
theorem test_decode_illegal_E2 :
    (∀ w ∈ [0x0000, 0x00E1, 0x00FE, 0x0200, 0x5121, 0x8128, 0x812F, 0x9AB1, 0xE19F, 0xE0A0, 0xF000, 0xF175, 0xF185, 0xFFFF],
      decodeTableWord 16 w = none) := by decide
theorem test_encode_R106 : bytesOfWord (encode (.drw 1 2 5)) = [0xD1#8, 0x25#8] := by decide

/-! ### Control transfer (T1 to T12) and skips (K1 to K12) -/

theorem test_jp_T3 : run 0x1FFF State.reset (fun t => t.pc == 0xFFF#16 && !t.halted) = true := by decide
theorem test_call_T5 :
    run 0x220A State.reset (fun t => t.pc == 0x20A#16 && t.sp == 1 && t.stackEntry 0 == some 0x202#16) = true := by decide
theorem test_call_full_T7 :
    run 0x2400 { State.reset with stack := List.replicate 16 0x202#16 }
      (fun t => halts .stackOverflow 0x200#16 t && t.sp == 16 && t.faultRecord.opcode == 0x2400#16) = true := by decide
theorem test_ret_T8 :
    run 0x00EE { State.reset with pc := 0x20A#16, stack := [0x202#16] } (fun t => t.pc == 0x202#16 && t.sp == 0) = true := by
  decide
theorem test_ret_empty_T9 :
    run 0x00EE State.reset (fun t => halts .stackUnderflow 0x200#16 t && t.faultRecord.opcode == 0x00EE#16) = true := by decide
theorem test_jpV0_T11 : run 0xBFFF (regs [(0, 0xFF)]) (fun t => t.pc == 0x10FE#16) = true := by decide
theorem test_jpV0_T12 : run 0xB300 (regs [(0, 0x02), (3, 0x40)]) (fun t => t.pc == 0x302#16) = true := by decide
theorem test_seImm_K1_K2 :
    run 0x3100 { State.reset with pc := 0x208#16 } (fun t => t.pc == 0x20C#16) = true ∧
    run 0x3100 { regs [(1, 4)] with pc := 0x208#16 } (fun t => t.pc == 0x20A#16) = true := by decide
theorem test_sneImm_K4_K5 :
    run 0x4A10 (regs [(10, 0x10)]) (fun t => t.pc == 0x202#16) = true ∧
    run 0x4A10 (regs [(10, 0x11)]) (fun t => t.pc == 0x204#16) = true := by decide
theorem test_seReg_K6_K7 :
    run 0x5120 (regs [(1, 7), (2, 7)]) (fun t => t.pc == 0x204#16) = true ∧
    run 0x5120 (regs [(1, 7), (2, 8)]) (fun t => t.pc == 0x202#16) = true := by decide
theorem test_sneReg_K9_K10 :
    run 0x9120 (regs [(1, 7), (2, 8)]) (fun t => t.pc == 0x204#16) = true ∧
    run 0x9330 State.reset (fun t => t.pc == 0x202#16) = true := by decide
theorem test_skip_over_illegal_word_K11 :
    run 0x3000 (poke State.reset 0x202 [0xFF, 0xFF]) (fun t => t.pc == 0x204#16 && !t.halted) = true := by decide

/-! ### Arithmetic, logic, shift and random (A1 to A34) -/

theorem test_ldImm_A1 : run 0x6FFF State.reset (fun t => t.readV vf == 0xFF#8) = true := by decide
theorem test_addImm_A2 : run 0x73FF (regs [(3, 1), (vf, 0x77)]) (fun t => t.readV 3 == 0 && t.readV vf == 0x77#8) = true := by decide
theorem test_addImm_A3 : run 0x7F02 (regs [(vf, 0xFF)]) (fun t => t.readV vf == 1#8) = true := by decide
theorem test_ldReg_A4 : run 0x83F0 (regs [(vf, 1)]) (fun t => t.readV 3 == 1#8) = true := by decide
theorem test_orReg_A5 :
    run 0x8121 (regs [(1, 0xF0), (2, 0x0F), (vf, 0x77)]) (fun t => t.readV 1 == 0xFF#8 && t.readV vf == 0x77#8) = true := by decide
theorem test_andReg_A6 :
    run 0x8122 (regs [(1, 0xF3), (2, 0x3C), (vf, 0x77)]) (fun t => t.readV 1 == 0x30#8 && t.readV vf == 0x77#8) = true := by decide
theorem test_xorReg_A7 :
    run 0x8123 (regs [(1, 0xF3), (2, 0x3C), (vf, 0x77)]) (fun t => t.readV 1 == 0xCF#8 && t.readV vf == 0x77#8) = true := by decide
theorem test_addReg_X3 :
    run 0x8124 (regs [(1, 200), (2, 100)]) (fun t => t.readV 1 == 44#8 && t.readV vf == 1#8 && t.readV 2 == 100#8) = true := by decide
theorem test_addReg_flag_operands_A12_A13 :
    run 0x8F14 (regs [(1, 0xF0), (vf, 0x20)]) (fun t => t.readV vf == 1#8) = true ∧
    run 0x81F4 (regs [(1, 0xF0), (vf, 0x20)]) (fun t => t.readV 1 == 0x10#8 && t.readV vf == 1#8) = true := by decide
theorem test_subReg_A15_A16 :
    run 0x8125 (regs [(1, 5), (2, 5)]) (fun t => t.readV 1 == 0#8 && t.readV vf == 1#8) = true ∧
    run 0x8125 (regs [(1, 0), (2, 1)]) (fun t => t.readV 1 == 0xFF#8 && t.readV vf == 0#8) = true := by decide
theorem test_subReg_flag_destination_A17 : run 0x8F15 (regs [(1, 3), (vf, 9)]) (fun t => t.readV vf == 1#8) = true := by decide
theorem test_shr_A18_A19 :
    run 0x8126 (regs [(2, 0x05), (1, 0xAA)]) (fun t => t.readV 1 == 2#8 && t.readV vf == 1#8 && t.readV 2 == 5#8) = true ∧
    run 0x8126 { regs [(2, 0x05), (1, 0xAA)] with params := ⟨Config.defaultFont, .vx⟩ }
      (fun t => t.readV 1 == 0x55#8 && t.readV vf == 0#8 && t.readV 2 == 5#8) = true := by decide
theorem test_shr_flag_destination_A21 : run 0x8F26 (regs [(2, 3)]) (fun t => t.readV vf == 1#8) = true := by decide
theorem test_subnReg_R170 :
    run 0x8127 (regs [(1, 3), (2, 10)]) (fun t => t.readV 1 == 7#8 && t.readV vf == 1#8) = true ∧
    run 0x8127 (regs [(1, 10), (2, 3)]) (fun t => t.readV 1 == 249#8 && t.readV vf == 0#8) = true := by decide
theorem test_shl_A27_A29 :
    run 0x812E (regs [(2, 0x81)]) (fun t => t.readV 1 == 2#8 && t.readV vf == 1#8) = true ∧
    run 0x812E { regs [(2, 0x81), (1, 0x40)] with params := ⟨Config.defaultFont, .vx⟩ }
      (fun t => t.readV 1 == 0x80#8 && t.readV vf == 0#8) = true := by decide
theorem test_shl_flag_destination_A30 : run 0x8F2E (regs [(2, 0xC0)]) (fun t => t.readV vf == 1#8) = true := by decide
theorem test_rnd_A31 : run 0xC30F (due State.reset true false 0xA7) (fun t => t.readV 3 == 7#8) = true := by decide

/-! ### Index register and memory (M1 to M21) -/

theorem test_ldI_M2 : run 0xAFFF State.reset (fun t => t.i == 0xFFF#16) = true := by decide
theorem test_addI_M4_M5 :
    run 0xF21E { regs [(2, 1)] with i := 0xFFF#16 } (fun t => t.i == 0x1000#16 && t.readV vf == 0#8 && !t.halted) = true ∧
    run 0xF21E { regs [(2, 1)] with i := 0xFFFF#16 } (fun t => t.i == 0#16) = true := by decide
theorem test_ldFont_M7_M8 :
    run 0xF029 (regs [(0, 0x0F)]) (fun t => t.i == 0x4B#16) = true ∧
    run 0xF029 (regs [(0, 0x10)]) (fun t => halts .digitRange 0x200#16 t && t.i == 0#16 && t.faultRecord.addr == 0x10#16) = true := by
  decide
theorem test_ldBcd_M9 :
    run 0xF033 { regs [(0, 234)] with i := 0x300#16 }
      (fun t => t.readByte 0x300 == 2#8 && t.readByte 0x301 == 3#8 && t.readByte 0x302 == 4#8) = true := by decide
theorem test_ldBcd_M12_M13 :
    run 0xF033 { regs [(0, 100)] with i := 0xFFD#16 } (fun t => t.readByte 0xFFD == 1#8 && !t.halted) = true ∧
    run 0xF033 { regs [(0, 100)] with i := 0xFFE#16 }
      (fun t => halts .memRange 0x200#16 t && t.readByte 0xFFE == 0#8 && t.faultRecord.addr == 0xFFE#16) = true := by decide
theorem test_storeRegs_M14 :
    run 0xF255 { poke (regs [(0, 0x11), (1, 0x22), (2, 0x33)]) 0x403 [0xEE] with i := 0x400#16 }
      (fun t => t.readByte 0x400 == 0x11#8 && t.readByte 0x402 == 0x33#8 && t.readByte 0x403 == 0xEE#8 && t.i == 0x400#16) = true := by
  decide
theorem test_storeRegs_over_itself_M21 :
    run 0xF155 { regs [(0, 0x12), (1, 0x00)] with i := 0x200#16 }
      (fun t => t.readByte 0x200 == 0x12#8 && t.readByte 0x201 == 0#8 && t.pc == 0x202#16) = true := by decide
theorem test_loadRegs_M18 :
    run 0xF265 { poke (regs [(3, 0x99)]) 0x300 [2, 3, 4, 5] with i := 0x300#16 }
      (fun t => t.readV 0 == 2#8 && t.readV 2 == 4#8 && t.readV 3 == 0x99#8 && t.i == 0x300#16) = true := by decide
theorem test_loadRegs_font_M19 :
    run 0xF465 State.reset (fun t => t.readV 0 == 0xF0#8 && t.readV 1 == 0x90#8 && t.readV 4 == 0xF0#8) = true := by decide

/-! ### Display (S1 to S17) -/

/-- `I` at 0x300, the sprite stored there, and some pixels on. -/
def sprite (vs : List (Reg × Byte)) (bytes : List Byte) (lit : List (Nat × Nat)) : State :=
  { poke (regs vs) 0x300 bytes with
    i := 0x300#16
    display := lit.foldl (fun d p => d.setPixel p.1 p.2 true) Display.blank }

theorem test_cls_S1 :
    run 0x00E0 (sprite [(vf, 0x77)] [] [(0, 0), (63, 31)])
      (fun t => !t.display.pixel 0 0 && !t.display.pixel 63 31 && t.readV vf == 0x77#8) = true := by decide
theorem test_drw_right_edge_S14 :
    run 0xD011 (sprite [(0, 63), (1, 0)] [0xFF] [(0, 0)])
      (fun t => t.display.pixel 63 0 && t.display.pixel 0 0 && !t.display.pixel 1 0 && t.readV vf == 0#8) = true := by decide
theorem test_drw_collision_S12 :
    run 0xD011 (sprite [] [0xC0] [(0, 0)])
      (fun t => !t.display.pixel 0 0 && t.display.pixel 1 0 && t.readV vf == 1#8) = true := by decide

/-! ### Keypad and timers (Y1 to Y17) -/

theorem test_skp_Y1_Y2 :
    run 0xE19E { (regs [(1, 5)]).setKey 5 true with pc := 0x210#16 } (fun t => t.pc == 0x214#16) = true ∧
    run 0xE19E { (regs [(1, 5)]).setKey 6 true with pc := 0x210#16 } (fun t => t.pc == 0x212#16) = true := by decide
theorem test_sknp_Y3_Y6 :
    run 0xE1A1 { regs [(1, 5)] with pc := 0x210#16 } (fun t => t.pc == 0x214#16) = true ∧
    run 0xE1A1 ((regs [(1, 0xF5)]).setKey 5 true) (halts .keyRange 0x200#16) = true := by decide
theorem test_ldVxKey_X8 :
    run 0xF10A (regs [(1, 0x55)]) (fun t => t.waiting && t.pc == 0x200#16 && t.readV 1 == 0x55#8) = true ∧
    run 0xF10A (((regs [(1, 0x55)]).setKey 7 true).setKey 3 true)
      (fun t => !t.waiting && t.pc == 0x202#16 && t.readV 1 == 3#8) = true := by decide
theorem test_ldVxDt_Y11 :
    run 0xF207 { due State.reset true true 0 with dt := 0x2A#8 } (fun t => t.readV 2 == 0x2A#8 && t.dt == 0x29#8) = true := by decide
theorem test_ldDtVx_Y12_Y13 :
    run 0xF115 (regs [(1, 5)]) (fun t => t.dt == 5#8) = true ∧
    run 0xF115 (due (regs [(1, 5)]) true true 0) (fun t => t.dt == 4#8) = true := by decide
theorem test_ldStVx_Y15 : run 0xF318 (regs [(3, 0x10)]) (fun t => t.st == 0x10#8 && t.dt == 0#8) = true := by decide

/-! ### Step cycle and faults (F1 to F11, Y16) -/

theorem test_reset_runs_into_zero_F1 :
    event (.step ⟨.flags true false, 0⟩) State.reset
      (fun t => halts .decodeError 0x200#16 t && t.faultRecord.opcode == 0#16 && t.output.faultCause == 1#3) = true := by decide
theorem test_halted_step_F2 :
    event (.step ⟨.flags true true, 0⟩) { State.reset with halted := true, dt := 5#8 } (fun t => t.dt == 5#8 && t.halted) = true := by
  decide
theorem test_no_tick_in_a_fault_F5 :
    event (.step ⟨.flags true true, 0⟩) { State.reset with dt := 5#8 } (fun t => t.dt == 5#8 && t.halted) = true := by decide
theorem test_fetch_range_F6 :
    event (.step ⟨.flags true false, 0⟩) { State.reset with pc := 0xFFF#16 }
      (fun t => halts .memRange 0xFFF#16 t && t.faultRecord.addr == 0xFFF#16) = true := by decide
theorem test_fetch_highest_F7 : run 0x1200 { State.reset with pc := 0xFFE#16 } (fun t => t.pc == 0x200#16) = true := by decide
theorem test_rate_limited_Y16 :
    event (.step ⟨.flags false true, 0⟩) { State.reset with dt := 1#8 }
      (fun t => t.dt == 0#8 && t.st == 0#8 && t.pc == 0x200#16) = true := by decide

/-! ### Witnesses: the hypotheses of each obligation can be met, each clause at the boundary of its range -/

theorem test_witness_EncodeDecodeRoundTrip : decodeWord 0xD125#16 = .ok (.drw 1 2 5) := by decide

theorem test_witness_DecoderFollowsOpcodeMap :
    decodeWord 0x8126#16 = .ok (.shr 1 2) ∧ 0x8126#16 &&& maskOf (.shr 1 2) = matchOf (.shr 1 2) ∧
    0x8126#16 &&& maskOf (.shr 7 0) = matchOf (.shr 7 0) := by decide

theorem test_witness_IllegalWordsAreRejected :
    fieldN3 0x00E1#16 = 0x0#4 ∧ fieldN3 0x5121#16 = 0x5#4 ∧ fieldN3 0x9AB1#16 = 0x9#4 ∧ fieldN3 0x812F#16 = 0x8#4 ∧
    fieldN3 0xE0A0#16 = 0xE#4 ∧ fieldN3 0xF185#16 = 0xF#4 := by decide

theorem test_witness_MemoryReadAfterWrite :
    Memory.wf State.reset.params.font State.reset.mem ∧
    4095 + [0x12#8].length ≤ 4096 ∧ 4096 + ([] : List Byte).length ≤ 4096 ∧
    4096 < 4095 + [0x12#8, 0x34#8].length ∧ 4096 < 4097 + ([] : List Byte).length := by decide

theorem test_witness_CanonicalMemoriesAreEqual :
    Memory.wf Config.defaultFont [(0x200, 0x12#8)] ∧
    Memory.put Config.defaultFont [] 0x200 0x12#8 = [(0x200, 0x12#8)] ∧
    (∀ a, Memory.get Config.defaultFont [(0x200, 0x12#8)] a =
      Memory.get Config.defaultFont (Memory.put Config.defaultFont [] 0x200 0x12#8) a) :=
  ⟨by decide, by decide, fun _ => rfl⟩

theorem test_witness_PushThenPop :
    ({ State.reset with stack := List.replicate 15 0x202#16 } : State).sp < 16 ∧
    ({ State.reset with stack := List.replicate 16 0x202#16 } : State).sp = 16 ∧ State.reset.sp = 0 := by decide

/-- Also the witness of `InvariantAtReset`. -/
theorem test_witness_ResetValues : State.reset.Start ∧ 80 ≤ 4095 ∧ 4095 < 4096 :=
  ⟨⟨State.reset.params, State.reset.args, State.reset.script, State.reset.draws, rfl⟩, by decide, by decide⟩

theorem test_witness_ResetFromAnyState :
    ({ State.reset with halted := true, script := [.reset 7] } : State).nextEvent = some (.reset 7) := by decide

theorem test_witness_LoadRomPlacesBytes :
    Memory.wf State.reset.params.font State.reset.mem ∧
    3584 < (List.replicate 3585 0x12#8).length ∧ (List.replicate 3584 0x12#8).length ≤ 3584 := by
  rw [List.length_replicate, List.length_replicate]; decide

/-- Also the witness of `StoredWordRunsNext`, of `TickComesAfterInstruction`'s shape and of the result statements of `6xkk`. -/
theorem test_witness_StepRunsDecodedInstruction :
    (due (poke State.reset 0x200 [0x6A, 0x2F]) true true 0).nextEvent = some (.step ⟨.flags true true, 0⟩) ∧
    (due (poke State.reset 0x200 [0x6A, 0x2F]) true true 0).halted = false ∧
    ({ due (poke State.reset 0x200 [0x6A, 0x2F]) true true 0 with args := ⟨.flags true true, 0⟩ } : State).execDue = true ∧
    (due (poke State.reset 0x200 [0x6A, 0x2F]) true true 0).fetch = some 0x6A2F#16 ∧
    decodeWord 0x6A2F#16 = .ok (.ldImm 10 0x2F) ∧
    Memory.wf (poke State.reset 0x200 [0x6A, 0x2F]).params.font (poke State.reset 0x200 [0x6A, 0x2F]).mem := by decide

theorem test_witness_HaltedUntilReset_step :
    ({ State.reset with halted := true, script := [.step ⟨.flags true true, 0⟩] } : State).nextEvent = some (.step ⟨.flags true true, 0⟩) ∧
    ({ State.reset with halted := true, script := [.step ⟨.flags true true, 0⟩] } : State).halted = true := by decide

theorem test_witness_HaltedUntilReset_reset :
    ∃ t, step { State.reset with halted := true, script := [.reset 7] } = .next t ∧ t.halted = false := ⟨_, rfl, rfl⟩

theorem test_witness_RateLimitedStepOnlyTicks :
    (due State.reset false true 0).nextEvent = some (.step { due := .flags false true, rnd := 0 }) ∧
    (due State.reset false true 0).halted = false := by decide

theorem test_witness_TickCountsBothTimersDown :
    ({ State.reset with args := ⟨.flags true true, 0⟩ } : State).tickDue = true ∧ State.reset.tickDue = false := by decide

theorem test_witness_TimersReachZero :
    ({ State.reset with args := ⟨.flags true true, 0⟩, dt := 5#8 } : State).args.due = .flags true true := by decide

theorem test_witness_TickComesAfterInstruction :
    (∀ p ∈ [([0xF2#8, 0x07#8], 0xF207#16), ([0xF1#8, 0x15#8], 0xF115#16), ([0xF3#8, 0x18#8], 0xF318#16)],
      ({ poke State.reset 0x200 p.1 with args := ⟨.flags true true, 0⟩ } : State).fetch = some p.2) ∧
    ({ State.reset with args := ⟨.flags true true, 0⟩ } : State).execDue = true ∧
    ({ State.reset with args := ⟨.flags true true, 0⟩ } : State).tickDue = true ∧ State.reset.halted = false ∧
    decodeWord 0xF207#16 = .ok (.ldVxDt 2) ∧ decodeWord 0xF115#16 = .ok (.ldDtVx 1) ∧ decodeWord 0xF318#16 = .ok (.ldStVx 3) := by
  decide

/-- Also the ill-formed event of the second clause. -/
theorem test_witness_EveryStepAnswers :
    (due State.reset true false 0).nextEvent = some (.step ⟨.flags true false, 0⟩) ∧
    ({ State.reset with script := [.keyUp 16] } : State).script = .keyUp 16 :: [] ∧ (Event.keyUp 16).wellFormed = false := by decide

theorem test_witness_FetchReadsBigEndianOrFaults :
    ({ State.reset with pc := 0xFFE#16 } : State).pc.toNat ≤ 0xFFE ∧
    (due State.reset true false 0).nextEvent = some (.step ⟨.flags true false, 0⟩) ∧ State.reset.halted = false ∧
    ({ State.reset with args := ⟨.flags true false, 0⟩ } : State).execDue = true ∧
    0xFFF ≤ ({ State.reset with pc := 0xFFF#16 } : State).pc.toNat ∧
    0xFFF ≤ ({ State.reset with pc := 0x10FE#16 } : State).pc.toNat := by decide

theorem test_witness_IllegalWordFaults :
    (due State.reset true false 0).nextEvent = some (.step ⟨.flags true false, 0⟩) ∧ State.reset.halted = false ∧
    ({ State.reset with args := ⟨.flags true false, 0⟩ } : State).execDue = true ∧
    (due State.reset true false 0).fetch = some 0x0000#16 ∧ decodeWord 0x0000#16 = .error .family0 := by decide

/-- Also the witness of `ParametersAreFixed`. -/
theorem test_witness_FaultingStepCommitsNothing :
    ∃ t, step (due State.reset true false 0) = .next t ∧ State.reset.halted = false ∧ t.halted = true ∧
      (due State.reset true false 0).fetch = some 0x0000#16 := ⟨_, rfl, rfl, rfl, by decide⟩

theorem test_witness_InstructionsFaultExactlyWhen :
    faultOf .ret State.reset = some (.stackUnderflow, none) ∧
    faultOf (.drw 0 1 1) { State.reset with i := 0xFFF#16 } = none ∧
    faultOf (.drw 0 1 1) { State.reset with i := 0x1000#16 } = some (.memRange, some 0x1000#16) ∧
    faultOf (.skp 1) (regs [(1, 15)]) = none ∧ faultOf (.skp 1) (regs [(1, 16)]) = some (.keyRange, some 16#16) := by decide

theorem test_witness_FaultEntryWritesRecordOnly : (some 7#16 : Option Addr) = some 7#16 ∧ (none : Option Addr) = none := ⟨rfl, rfl⟩

theorem test_witness_ControlEffect_waits :
    faultOf (.ldVxKey 1) State.reset = none ∧
    ∃ t, exec (.ldVxKey 1) State.reset = .next t ∧ t.waiting = true := ⟨by decide, _, rfl, rfl⟩

/-- The jumps; `00EE` with one entry on the stack, `2nnn` with the last one free. -/
theorem test_witness_ControlEffect_jumps :
    (faultOf .ret { State.reset with stack := [0x202#16] } = none ∧
      ∃ t, exec .ret { State.reset with stack := [0x202#16] } = .next t ∧ t.waiting = false) ∧
    (faultOf (.call 0xFFF) { State.reset with stack := List.replicate 15 0x202#16 } = none ∧
      ∃ t, exec (.call 0xFFF) { State.reset with stack := List.replicate 15 0x202#16 } = .next t ∧ t.waiting = false) ∧
    (faultOf (.jpV0 0xFFF) State.reset = none ∧ ∃ t, exec (.jpV0 0xFFF) State.reset = .next t ∧ t.waiting = false) :=
  ⟨⟨by decide, _, rfl, rfl⟩, ⟨by decide, _, rfl, rfl⟩, by decide, _, rfl, rfl⟩

theorem test_witness_SoundTimerIsNeverRead :
    ∃ t, exec (.ldStVx 3) (regs [(3, 0x10)]) = .next t ∧ ∃ x, Instr.ldStVx 3 = .ldStVx x := ⟨_, rfl, 3, rfl⟩

/-- Also the witness of `OnlySixInstructionsWriteTheFlag`, `RandomByteReachesOnlyRnd` and the last clause of `SoundTimerIsNeverRead`. -/
theorem test_witness_FrameOfEveryInstruction :
    Memory.wf State.reset.params.font State.reset.mem ∧ faultOf (.addReg 1 2) State.reset = none ∧ (1 : Reg) ≠ vf ∧
    ∃ t, exec (.addReg 1 2) State.reset = .next t ∧ t.waiting = false := ⟨by decide, by decide, by decide, _, rfl, rfl⟩

theorem test_witness_ReturnPopsTheStack :
    0 < ({ State.reset with stack := [0x202#16] } : State).sp ∧ State.reset.sp = 0 := by decide

theorem test_witness_CallPushesTheReturnAddress :
    ({ State.reset with stack := List.replicate 15 0x202#16 } : State).sp < 16 ∧
    ({ State.reset with stack := List.replicate 16 0x202#16 } : State).sp = 16 := by decide

theorem test_witness_ShiftsByOnePlace :
    0x05#8 = (if (regs [(2, 0x05), (1, 0xAA)]).params.shiftSrc = .vy then (regs [(2, 0x05), (1, 0xAA)]).readV 2
      else (regs [(2, 0x05), (1, 0xAA)]).readV 1) := by decide

theorem test_witness_GlyphAddressOfDigit :
    ((regs [(0, 15)]).readV 0).toNat ≤ 15 ∧ 15 < ((regs [(0, 16)]).readV 0).toNat := by decide

theorem test_witness_BcdStoresThreeDigits :
    Memory.wf State.reset.params.font State.reset.mem ∧ (0xFFD#16).toNat + 3 ≤ 4096 ∧ 4096 < (0xFFE#16).toNat + 3 := by decide

theorem test_witness_StoreRegistersThroughVx :
    Memory.wf State.reset.params.font State.reset.mem ∧ (0xFF0#16).toNat + (15 : Reg).val + 1 ≤ 4096 ∧
    4096 < (0xFF1#16).toNat + (15 : Reg).val + 1 := by decide

theorem test_witness_LoadRegistersThroughVx :
    (0xFFF#16).toNat + (0 : Reg).val + 1 ≤ 4096 ∧ 4096 < (0x1000#16).toNat + (0 : Reg).val + 1 := by decide

theorem test_witness_SelfModifyingCodeIsFetched :
    ∃ s t u : State, Memory.wf s.params.font s.mem ∧ s.i = s.pc + 2#16 ∧ s.pc.toNat ≤ 0xFFE ∧
      exec (.storeRegs 1) s = .next t ∧ exec (.ldBcd 1) s = .next u ∧ 1 ≤ (1 : Reg).val ∧
      s.i.toNat + (1 : Reg).val + 1 ≤ 4096 ∧ s.i.toNat + 3 ≤ 4096 :=
  ⟨{ State.reset with i := 0x202#16 }, _, _, by decide, by decide, by decide, rfl, rfl, by decide, by decide, by decide⟩

theorem test_witness_DrawSpriteInvertsCoveredPixels :
    (0x1000#16).toNat + (0 : Fin 16).val ≤ 4096 ∧ 4096 < (0x1001#16).toNat + (0 : Fin 16).val := by decide

/-- The state of the vector X5, whose display is clear. -/
def spriteX5 : State := sprite [(0, 8), (1, 4)] [0x3C] []

theorem test_witness_DrawingTwiceRestoresDisplay_origin :
    nextIs (exec (.drw 0 1 1) spriteX5) (fun t => t.readV 0 == spriteX5.readV 0 && t.readV 1 == spriteX5.readV 1) = true := by
  decide

theorem test_witness_DrawingTwiceRestoresDisplay :
    spriteX5.i.toNat + (1 : Fin 16).val ≤ 4096 ∧
    [0x3C#8] = (List.range (1 : Fin 16).val).map (fun j => spriteX5.readByte (spriteX5.i.toNat + j)) ∧
    spriteX5.display = Display.blank := ⟨by decide, by decide, rfl⟩

theorem test_witness_SkipsOnKeyLevel :
    ((regs [(1, 15)]).readV 1).toNat = (15 : KeyId).val ∧ 15 < ((regs [(1, 16)]).readV 1).toNat := by decide

theorem test_witness_KeyWaitTakesLowestKey :
    (∀ k, State.reset.key k = false) ∧ (State.reset.setKey 15 true).key 15 = true ∧
    ∀ j < (15 : KeyId), (State.reset.setKey 15 true).key j = false := by decide

theorem test_witness_StepKeepsInvariant_state : Inv (due State.reset true false 0) where
  mem := by decide
  depth := by decide
  entries := nofun
  pc := by decide
  cause := by decide
  precise := nofun

theorem test_witness_StepKeepsInvariant :
    Inv (due State.reset true false 0) ∧ ∃ t, step (due State.reset true false 0) = .next t :=
  ⟨test_witness_StepKeepsInvariant_state, _, rfl⟩

theorem test_witness_ReachableBounds : Reachable State.reset := .start test_witness_ResetValues.1

theorem test_witness_WaitingStaysAtKeyWait :
    ∃ s t : State, s.WaitsAtKeyWait ∧ s.waiting = true ∧ step s = .next t ∧ ∀ bytes, s.nextEvent ≠ some (.loadRom bytes) :=
  ⟨due { poke State.reset 0x200 [0xF1, 0x0A] with waiting := true } true false 0, _,
    fun _ => ⟨0xF10A#16, 1, by decide, by decide⟩, rfl, rfl, nofun⟩

end Sys2Proof.Tests
end

section
/-! SUPPORT. The state and control effect an instruction commits, one equation for each case that completes of the instructions
whose meaning branches on the state. `Dxyn` has `execDrw_cases`. -/

namespace Sys2Proof.Machine

variable {s : State}

/-- `00EE` on a stack that is not empty (R141). -/
theorem exec_ret_of_stack {a : Addr} {rest : List Addr} (h : s.stack = a :: rest) :
    exec .ret s = commit { s with stack := rest } (.jump a) := by
  simp only [exec, execRet, State.pop, h]

/-- `2nnn` with a free entry (R143). -/
theorem exec_call_of_lt (nnn : BitVec 12) (h : s.sp < 16) :
    exec (.call nnn) s = commit { s with stack := (s.pc + 2#16) :: s.stack } (.jump (zextNnn nnn)) := by
  simp only [exec, execCall, s.push_of_lt h]

/-- `Ex9E` on a key id (R201). -/
theorem exec_skp_of_index {x : Reg} {k : KeyId} (h : index16 (s.readV x) = some k) :
    exec (.skp x) s = commit s (skipIf (s.key k)) := by
  simp only [exec, execSkp, h]

/-- `ExA1` on a key id (R202). -/
theorem exec_sknp_of_index {x : Reg} {k : KeyId} (h : index16 (s.readV x) = some k) :
    exec (.sknp x) s = commit s (skipIf (!s.key k)) := by
  simp only [exec, execSknp, h]

/-- `Fx29` on a digit (R183). -/
theorem exec_ldFont_of_index {x : Reg} {d : Fin 16} (h : index16 (s.readV x) = some d) :
    exec (.ldFont x) s = commit { s with i := glyphAddr d } .next := by
  simp only [exec, execLdFont, h]

/-- `Fx0A` while no key is pressed (R203). -/
theorem exec_ldVxKey_of_none (x : Reg) (h : s.lowestKey = none) : exec (.ldVxKey x) s = commit s .wait := by
  simp only [exec, execLdVxKey, h]

/-- `Fx0A` with a key pressed (R203). -/
theorem exec_ldVxKey_of_some (x : Reg) {k : KeyId} (h : s.lowestKey = some k) :
    exec (.ldVxKey x) s = commit (s.setV x (keyByte k)) .next := by
  simp only [exec, execLdVxKey, h]

/-- `Fx33` inside the address space (R184). -/
theorem exec_ldBcd_of_inRange (x : Reg) (h : s.i.toNat + 3 ≤ 4096) :
    exec (.ldBcd x) s =
      commit { s with mem := Memory.putAll s.params.font s.mem s.i.toNat (bcdDigits (s.readV x)) } .next := by
  simp only [exec, execLdBcd, s.memWrite_of_inRange (bytes := bcdDigits (s.readV x)) h]

/-- `Fx55` inside the address space (R186). -/
theorem exec_storeRegs_of_inRange (x : Reg) (h : s.i.toNat + x.val + 1 ≤ 4096) :
    exec (.storeRegs x) s =
      commit { s with mem := Memory.putAll s.params.font s.mem s.i.toNat (s.regsUpTo x) } .next := by
  have hr : s.i.toNat + (s.regsUpTo x).length ≤ 4096 := by rw [length_regsUpTo]; exact h
  simp only [exec, execStoreRegs, s.memWrite_of_inRange hr]

/-- `Fx65` inside the address space (R187). -/
theorem exec_loadRegs_of_inRange (x : Reg) (h : s.i.toNat + x.val + 1 ≤ 4096) :
    exec (.loadRegs x) s =
      commit (s.setVs ((List.range (x.val + 1)).map fun j => s.readByte (s.i.toNat + j))) .next := by
  simp only [exec, execLoadRegs, s.memRead_of_inRange (n := x.val + 1) h]

/-- A byte of at most 15 is an index. -/
theorem index16_of_le {b : Byte} (h : b.toNat ≤ 15) : ∃ d, index16 b = some d :=
  ⟨⟨b.toNat, Nat.lt_succ_of_le h⟩, (index16_eq_some b _).mpr rfl⟩

end Sys2Proof.Machine
end

section
/-! SUPPORT. The frame of an instruction that does not fault, one footprint shape at a time, and then of every instruction
(spec/10_state.md R10, R49). -/

namespace Sys2Proof.Machine

/-- The frame of an instruction that writes no register and no byte of memory. -/
theorem unchanged_of_fields {f : Footprint} (s : State) {i : Addr} {stack : List Addr} {display : Display} {dt st : Byte}
    (e : Effect) (hi : f.i = false → i = s.i) (hstack : f.stack = false → stack = s.stack)
    (hdisplay : f.display = false → display = s.display) (hdt : f.dt = false → dt = s.dt)
    (hst : f.st = false → st = s.st) :
    Unchanged f s { s with i := i, stack := stack, display := display, dt := dt, st := st,
                           pc := e.apply s.pc, waiting := e.isWait } :=
  unchanged_of_commit (s := s) (w := { s with i := i, stack := stack, display := display, dt := dt, st := st })
    ⟨rfl, rfl, rfl, rfl, rfl, rfl, rfl, rfl, rfl, rfl, rfl⟩ e (fun _ _ => rfl) (fun _ _ => rfl) hi hstack hdisplay hdt hst

/-- The frame of a control effect alone: a jump, a skip, a wait. -/
theorem unchanged_effect (s : State) (e : Effect) :
    Unchanged {} s { s with pc := e.apply s.pc, waiting := e.isWait } :=
  unchanged_of_fields s e (fun _ => rfl) (fun _ => rfl) (fun _ => rfl) (fun _ => rfl) (fun _ => rfl)

/-- The frame of an instruction whose only write is `I`. -/
theorem unchanged_i (s : State) (a : Addr) (e : Effect) :
    Unchanged { i := true } s { s with i := a, pc := e.apply s.pc, waiting := e.isWait } :=
  unchanged_of_fields s e nofun (fun _ => rfl) (fun _ => rfl) (fun _ => rfl) (fun _ => rfl)

/-- The frame of an instruction whose only write is the call stack. -/
theorem unchanged_stack (s : State) (l : List Addr) (e : Effect) :
    Unchanged { stack := true } s { s with stack := l, pc := e.apply s.pc, waiting := e.isWait } :=
  unchanged_of_fields s e (fun _ => rfl) nofun (fun _ => rfl) (fun _ => rfl) (fun _ => rfl)

/-- The frame of an instruction whose only write is the display. -/
theorem unchanged_display (s : State) (d : Display) (e : Effect) :
    Unchanged { display := true } s { s with display := d, pc := e.apply s.pc, waiting := e.isWait } :=
  unchanged_of_fields s e (fun _ => rfl) (fun _ => rfl) nofun (fun _ => rfl) (fun _ => rfl)

/-- The frame of an instruction whose only write is `DT`. -/
theorem unchanged_dt (s : State) (b : Byte) (e : Effect) :
    Unchanged { dt := true } s { s with dt := b, pc := e.apply s.pc, waiting := e.isWait } :=
  unchanged_of_fields s e (fun _ => rfl) (fun _ => rfl) (fun _ => rfl) nofun (fun _ => rfl)

/-- The frame of an instruction whose only write is `ST`. -/
theorem unchanged_st (s : State) (b : Byte) (e : Effect) :
    Unchanged { st := true } s { s with st := b, pc := e.apply s.pc, waiting := e.isWait } :=
  unchanged_of_fields s e (fun _ => rfl) (fun _ => rfl) (fun _ => rfl) (fun _ => rfl) nofun

/-- The frame of `Dxyn`: the display and then VF as the collision flag. -/
theorem unchanged_display_setV (s : State) (d : Display) (x : Reg) (b : Byte) (e : Effect) :
    Unchanged { regs := [x], display := true } s
      { { s with display := d }.setV x b with pc := e.apply s.pc, waiting := e.isWait } :=
  unchanged_of_commit (s := s) (f := { regs := [x], display := true }) (w := { s with display := d }.setV x b)
    ⟨rfl, rfl, rfl, rfl, rfl, rfl, rfl, rfl, rfl, rfl, rfl⟩ e
    (fun r hr => State.readV_setV_of_ne { s with display := d } (by simpa using hr) b) (fun _ _ => rfl) (fun _ => rfl)
    (fun _ => rfl) nofun (fun _ => rfl) (fun _ => rfl)

/-- An instruction that does not fault completes, and writes only its footprint. -/
theorem exec_completes_in_footprint (i : Instr) {s : State} (hm : Memory.wf s.params.font s.mem)
    (hf : faultOf i s = none) : ∃ t, exec i s = .next t ∧ Unchanged (footprintOf i s) s t := by
  cases i
  case jp nnn | jpV0 nnn => exact ⟨_, rfl, unchanged_effect s _⟩
  case seImm x y | sneImm x y | seReg x y | sneReg x y => exact ⟨_, rfl, unchanged_effect s _⟩
  case ldImm x y | addImm x y | ldReg x y | orReg x y | andReg x y | xorReg x y | rnd x y =>
    exact ⟨_, rfl, unchanged_setV s x _ .next⟩
  case ldVxDt x => exact ⟨_, rfl, unchanged_setV s x _ .next⟩
  case addReg x y | subReg x y | shr x y | subnReg x y | shl x y => exact ⟨_, rfl, unchanged_setVFlag s x _ _ .next⟩
  case cls => exact ⟨_, rfl, unchanged_display s _ .next⟩
  case ldI nnn | addI x => exact ⟨_, rfl, unchanged_i s _ .next⟩
  case ldDtVx x => exact ⟨_, rfl, unchanged_dt s _ .next⟩
  case ldStVx x => exact ⟨_, rfl, unchanged_st s _ .next⟩
  case ret =>
    have hsp : s.stack ≠ [] := by simpa [faultOf, State.sp] using hf
    obtain ⟨a, rest, hs⟩ := List.exists_cons_of_ne_nil hsp
    exact ⟨_, exec_ret_of_stack hs, unchanged_stack s rest _⟩
  case call nnn =>
    have hsp : s.sp < 16 := by simpa [faultOf] using hf
    exact ⟨_, exec_call_of_lt nnn hsp, unchanged_stack s _ _⟩
  case skp x =>
    obtain ⟨k, hk⟩ := index16_of_le (b := s.readV x) (by simpa [faultOf] using hf)
    exact ⟨_, exec_skp_of_index hk, unchanged_effect s _⟩
  case sknp x =>
    obtain ⟨k, hk⟩ := index16_of_le (b := s.readV x) (by simpa [faultOf] using hf)
    exact ⟨_, exec_sknp_of_index hk, unchanged_effect s _⟩
  case ldFont x =>
    obtain ⟨d, hd⟩ := index16_of_le (b := s.readV x) (by simpa [faultOf] using hf)
    exact ⟨_, exec_ldFont_of_index hd, unchanged_i s _ .next⟩
  case ldVxKey x =>
    cases hk : s.lowestKey with
    | none =>
      have hfoot : footprintOf (.ldVxKey x) s = {} := by simp [footprintOf, hk]
      exact ⟨_, exec_ldVxKey_of_none x hk, hfoot ▸ unchanged_effect s .wait⟩
    | some k =>
      have hfoot : footprintOf (.ldVxKey x) s = { regs := [x] } := by simp [footprintOf, hk]
      exact ⟨_, exec_ldVxKey_of_some x hk, hfoot ▸ unchanged_setV s x _ .next⟩
  case drw x y n =>
    have hr : s.i.toNat + n.val ≤ 4096 := by simpa [faultOf] using hf
    obtain ⟨hout, -⟩ | ⟨-, rows, -, hx⟩ := execDrw_cases x y n s
    · exact absurd hr (Nat.not_le.mpr hout)
    · exact ⟨_, hx, unchanged_display_setV s _ vf _ .next⟩
  case ldBcd x =>
    have hr : s.i.toNat + 3 ≤ 4096 := by simpa [faultOf] using hf
    exact ⟨_, exec_ldBcd_of_inRange x hr, unchanged_stored hm s.i.toNat (bcdDigits (s.readV x)) .next⟩
  case storeRegs x =>
    have hr : s.i.toNat + x.val + 1 ≤ 4096 := by simpa [faultOf] using hf
    have hfoot : footprintOf (.storeRegs x) s = { stored := (s.i.toNat, (s.regsUpTo x).length) } := by
      rw [length_regsUpTo]; rfl
    exact ⟨_, exec_storeRegs_of_inRange x hr, hfoot ▸ unchanged_stored hm s.i.toNat (s.regsUpTo x) .next⟩
  case loadRegs x =>
    have hr : s.i.toNat + x.val + 1 ≤ 4096 := by simpa [faultOf] using hf
    exact ⟨_, exec_loadRegs_of_inRange x hr, unchanged_setVs s x _ (by simp) .next⟩

/-- Settles O27: an instruction that does not fault completes in a state outside whose footprint nothing changed, and `exec`
answers one state. -/
theorem frameOfEveryInstruction : Obligations.FrameOfEveryInstruction := by
  intro i s t hm hf hx
  obtain ⟨u, hu, hframe⟩ := exec_completes_in_footprint i hm hf
  obtain rfl : u = t := Host.Outcome.next.inj (hu.symm.trans hx)
  exact hframe

end Sys2Proof.Machine
end

section
/-! SUPPORT. How an instruction that completes moves `pc`, the call stack and memory, said once for all 34 (spec/40_step_cycle.md
R128; spec/41_flow.md R140 to R144). -/

namespace Sys2Proof.Machine

/-- The ways an instruction can leave `pc`, the call stack, memory and `waiting`. -/
inductive Moves (i : Instr) (s t : State) : Prop where
  /-- NEXT or SKIP. -/
  | advance (pc : t.pc = s.pc + 2#16 ∨ t.pc = s.pc + 4#16) (stack : t.stack = s.stack) (mem : t.mem = s.mem)
      (waiting : t.waiting = false)
  /-- NEXT after bytes stored from `I` upwards: `Fx33` and `Fx55`. -/
  | store (bytes : List Byte) (inside : s.i.toNat + bytes.length ≤ 4096) (pc : t.pc = s.pc + 2#16)
      (stack : t.stack = s.stack) (mem : t.mem = Memory.putAll s.params.font s.mem s.i.toNat bytes)
      (waiting : t.waiting = false)
  /-- WAIT: `Fx0A` alone. -/
  | wait (x : Reg) (instr : i = .ldVxKey x) (pc : t.pc = s.pc) (stack : t.stack = s.stack) (mem : t.mem = s.mem)
  /-- JUMP to an address the instruction forms: `1nnn` and `Bnnn`. -/
  | jump (pc : t.pc.toNat ≤ 0x10FE) (stack : t.stack = s.stack) (mem : t.mem = s.mem) (waiting : t.waiting = false)
  /-- JUMP to the entry popped: `00EE`. -/
  | ret (stack : s.stack = t.pc :: t.stack) (mem : t.mem = s.mem) (waiting : t.waiting = false)
  /-- JUMP with the return address pushed: `2nnn`. -/
  | call (room : s.sp < 16) (pc : t.pc.toNat ≤ 0xFFF) (stack : t.stack = (s.pc + 2#16) :: s.stack) (mem : t.mem = s.mem)
      (waiting : t.waiting = false)

theorem skipIf_apply (c : Bool) (pc : Addr) : (skipIf c).apply pc = pc + 2#16 ∨ (skipIf c).apply pc = pc + 4#16 := by
  cases c
  · exact .inl rfl
  · exact .inr rfl

@[simp] theorem skipIf_isWait (c : Bool) : (skipIf c).isWait = false := by cases c <;> rfl

/-- A 12-bit address. -/
theorem toNat_zextNnn_le (nnn : BitVec 12) : (zextNnn nnn).toNat ≤ 0xFFF := by
  rw [toNat_zextNnn]; have := nnn.isLt; omega

/-- The largest target of `Bnnn` is 0xFFF + 0xFF (R37, R144). -/
theorem toNat_zextNnn_add_zextByte_le (nnn : BitVec 12) (b : Byte) : (zextNnn nnn + zextByte b).toNat ≤ 0x10FE := by
  rw [BitVec.toNat_add, toNat_zextNnn, toNat_zextByte]; have := nnn.isLt; have := b.isLt; omega

variable {i : Instr} {s t : State}

/-- An instruction whose next state is not halted moves in one of the ways of `Moves`. -/
theorem exec_moves (hx : exec i s = .next t) (hlive : t.halted = false) : Moves i s t := by
  cases i
  case ret =>
    simp only [exec, execRet] at hx
    split at hx
    · cases hx; cases hlive
    · rename_i a w hp
      obtain ⟨rest, hs, rfl⟩ := State.pop_eq_some s hp
      cases hx; exact .ret hs rfl rfl
  case call nnn =>
    simp only [exec, execCall] at hx
    split at hx
    · cases hx; cases hlive
    · rename_i w hp
      obtain ⟨hroom, rfl⟩ := State.push_eq_some s hp
      cases hx; exact .call hroom (toNat_zextNnn_le nnn) rfl rfl rfl
  case jp nnn => cases hx; exact .jump ((toNat_zextNnn_le nnn).trans (by decide)) rfl rfl rfl
  case jpV0 nnn => cases hx; exact .jump (toNat_zextNnn_add_zextByte_le nnn _) rfl rfl rfl
  case seImm x y | sneImm x y | seReg x y | sneReg x y =>
    cases hx; exact .advance (skipIf_apply _ _) rfl rfl (skipIf_isWait _)
  case skp x | sknp x =>
    simp only [exec, execSkp, execSknp] at hx
    split at hx
    · cases hx; cases hlive
    · cases hx; exact .advance (skipIf_apply _ _) rfl rfl (skipIf_isWait _)
  case ldFont x | loadRegs x =>
    simp only [exec, execLdFont, execLoadRegs] at hx
    split at hx
    · cases hx; cases hlive
    · cases hx; exact .advance (.inl rfl) rfl rfl rfl
  case ldVxKey x =>
    simp only [exec, execLdVxKey] at hx
    split at hx
    · cases hx; exact .wait x rfl rfl rfl rfl
    · cases hx; exact .advance (.inl rfl) rfl rfl rfl
  case drw x y n =>
    obtain ⟨-, h⟩ | ⟨-, rows, -, h⟩ := execDrw_cases x y n s
    · cases h.symm.trans hx; cases hlive
    · cases h.symm.trans hx; exact .advance (.inl rfl) rfl rfl rfl
  case ldBcd x | storeRegs x =>
    simp only [exec, execLdBcd, execStoreRegs] at hx
    split at hx
    · cases hx; cases hlive
    · rename_i w hw
      obtain ⟨hin, rfl⟩ := State.memWrite_eq_some hw
      cases hx; exact .store _ hin rfl rfl rfl rfl
  all_goals cases hx; exact .advance (.inl rfl) rfl rfl rfl

/-- The same of an instruction that commits in a state that is not halted. -/
theorem moves_of_commit {w : State} {e : Effect} (hx : exec i s = commit w e) (hk : Kept s w) (hlive : s.halted = false) :
    Moves i s { w with pc := e.apply w.pc, waiting := e.isWait } :=
  exec_moves hx (hk.halted.trans hlive)

end Sys2Proof.Machine
end

section
/-! SUPPORT. The invariant: it holds after every reset, and every transition keeps it (spec/10_state.md R37, R38; spec/60_exceptions.md
R221, R226). -/

namespace Sys2Proof.Machine

variable {s t : State}

/-- The invariant speaks of these six fields only. -/
theorem Inv.of_fields (hs : Inv s) (params : t.params = s.params) (mem : t.mem = s.mem) (stack : t.stack = s.stack)
    (pc : t.pc = s.pc) (halted : t.halted = s.halted) (record : t.faultRecord = s.faultRecord) : Inv t where
  mem := by rw [params, mem]; exact hs.mem
  depth := by unfold State.sp; rw [stack]; exact hs.depth
  entries := by rw [stack]; exact hs.entries
  pc := by rw [pc]; exact hs.pc
  cause := by rw [halted, record]; exact hs.cause
  precise := by rw [halted, record, pc]; exact hs.precise

/-- The tick writes timers only (R236). -/
theorem Inv.tick (hs : Inv s) : Inv s.tick :=
  hs.of_fields s.tick_params s.tick_mem s.tick_stack s.tick_pc s.tick_halted s.tick_faultRecord

/-- An executed step marks its time only (R238). -/
theorem Inv.markExecuted (hs : Inv s) : Inv s.markExecuted :=
  hs.of_fields s.markExecuted_params s.markExecuted_mem s.markExecuted_stack s.markExecuted_pc s.markExecuted_halted
    s.markExecuted_faultRecord

/-- Fault entry records the `pc` it leaves (R224, R226). -/
theorem Inv.enterFault (hs : Inv s) (c : Fault) (op : Opcode) (info : Option Addr) : Inv (s.enterFault c op info) where
  mem := hs.mem
  depth := hs.depth
  entries := hs.entries
  pc := hs.pc
  cause := rfl
  precise _ := rfl

/-- A program image that fits is stored in canonical form (R79). -/
theorem Inv.loadRom (hs : Inv s) {bytes : List Byte} (hl : bytes.length ≤ 3584) :
    Inv { s with mem := Memory.putAll s.params.font s.mem 0x200 bytes } :=
  { hs with mem := Memory.putAll_wf bytes hs.mem (show 0x200 + bytes.length ≤ 4096 by omega) }

/-- A reset establishes the invariant, whatever the state was (R50). -/
theorem inv_resetAt (s : State) (now : Time) : Inv (s.resetAt now) where
  mem := Memory.nil_wf _
  depth := Nat.zero_le _
  entries := nofun
  pc := show (0x200#16).toNat ≤ 0x10FE by decide
  cause := rfl
  precise := nofun

/-- Where an instruction fetched from inside memory moves to is inside the bounds again (R37, R38). -/
theorem Inv.of_moves {i : Instr} (hs : Inv s) (hfetch : s.pc.toNat ≤ 0xFFE) (hm : Moves i s t) (params : t.params = s.params)
    (halted : t.halted = s.halted) (record : t.faultRecord = s.faultRecord) (hlive : s.halted = false) : Inv t := by
  have hcause : t.halted = t.faultRecord.cause.isSome := by rw [halted, record]; exact hs.cause
  have hprecise : t.halted = true → t.faultRecord.pc = t.pc := fun h => by rw [halted, hlive] at h; cases h
  have hsame (hmem : t.mem = s.mem) : Memory.wf t.params.font t.mem := by rw [params, hmem]; exact hs.mem
  have hdepth (hstack : t.stack = s.stack) : t.sp ≤ 16 := by unfold State.sp; rw [hstack]; exact hs.depth
  have hentries (hstack : t.stack = s.stack) : ∀ a ∈ t.stack, a.toNat ≤ 0x1000 := by rw [hstack]; exact hs.entries
  have hnext : (s.pc + 2#16).toNat ≤ 0x1000 := by rw [BitVec.toNat_add]; simp; omega
  have hskip : (s.pc + 4#16).toNat ≤ 0x1002 := by rw [BitVec.toNat_add]; simp; omega
  cases hm with
  | advance pc stack mem =>
    have hpc : t.pc.toNat ≤ 0x10FE := by rcases pc with pc | pc <;> rw [pc] <;> omega
    exact ⟨hsame mem, hdepth stack, hentries stack, hpc, hcause, hprecise⟩
  | store bytes inside pc stack mem =>
    have hwf : Memory.wf t.params.font t.mem := by rw [params, mem]; exact Memory.putAll_wf bytes hs.mem inside
    exact ⟨hwf, hdepth stack, hentries stack, by rw [pc]; omega, hcause, hprecise⟩
  | wait x _ pc stack mem => exact ⟨hsame mem, hdepth stack, hentries stack, by rw [pc]; omega, hcause, hprecise⟩
  | jump pc stack mem => exact ⟨hsame mem, hdepth stack, hentries stack, pc, hcause, hprecise⟩
  | ret stack mem =>
    have hd := hs.depth
    have he := hs.entries
    rw [State.sp, stack, List.length_cons] at hd
    rw [stack, List.forall_mem_cons] at he
    exact ⟨hsame mem, Nat.le_of_succ_le hd, he.2, he.1.trans (by decide), hcause, hprecise⟩
  | call room pc stack mem =>
    have hd : t.sp ≤ 16 := by rw [State.sp, stack]; exact room
    have he : ∀ a ∈ t.stack, a.toNat ≤ 0x1000 := by rw [stack, List.forall_mem_cons]; exact ⟨hnext, hs.entries⟩
    exact ⟨hsame mem, hd, he, pc.trans (by decide), hcause, hprecise⟩

/-- Every way a `Step` ends keeps the invariant. -/
theorem Inv.cycle (hs : Inv s) (hc : CycleEnds s t) : Inv t := by
  cases hc with
  | halted => exact hs
  | limited => exact hs.tick
  | fetchFault => exact hs.enterFault _ _ _
  | decodeFault => exact hs.enterFault _ _ _
  | execFault => exact hs.enterFault _ _ _
  | executed h _ _ _ hf _ _ _ hx hk =>
    have hdone := hs.of_moves (State.pc_of_fetch hf) (moves_of_commit hx hk h) hk.params hk.halted hk.faultRecord h
    exact hdone.markExecuted.tick

/-- Settles O53, by the ways a transition ends. -/
theorem stepKeepsInvariant : Obligations.StepKeepsInvariant := by
  intro s t hs hstep
  have hc : Inv s.consume := hs.of_fields rfl rfl rfl rfl rfl rfl
  cases step_ends hstep with
  | idle => exact hc
  | reset now => exact inv_resetAt _ now
  | loadRom bytes _ hl => exact hc.loadRom hl
  | key => exact hc.of_fields rfl rfl rfl rfl rfl rfl
  | step args _ _ hends => exact (hc.of_fields rfl rfl rfl rfl rfl rfl : Inv { s.consume with args := args }).cycle hends

/-- A start is a state that a reset at the origin of time leaves as it is (R50, R251). -/
theorem State.Start.resetAt_eq (h : s.Start) : s.resetAt 0 = s := by
  obtain ⟨params, args, script, draws, rfl⟩ := h; rfl

/-- Settles O52: a start is a state right after a reset. -/
theorem invariantAtReset : Obligations.InvariantAtReset := fun s h => h.resetAt_eq ▸ inv_resetAt s 0

/-- Settles O54: the invariant holds at a start and is kept, so it holds of every reachable state. -/
theorem reachableBounds : Obligations.ReachableBounds := by
  intro s h
  have hs : Inv s := reachable_induction invariantAtReset stepKeepsInvariant h
  exact ⟨hs.pc, hs.depth, hs.precise⟩

end Sys2Proof.Machine
end

section
/-! SUPPORT. `waiting` and the instruction at `pc` (spec/10_state.md R46; spec/40_step_cycle.md R131). -/

namespace Sys2Proof.Machine

variable {s t : State}

/-- The word at `pc` is a matter of `pc`, memory and the font (R125). -/
theorem State.fetch_congr (params : t.params = s.params) (mem : t.mem = s.mem) (pc : t.pc = s.pc) : t.fetch = s.fetch := by
  unfold State.fetch State.memRead State.readByte; rw [params, mem, pc]

/-- A core that leaves `waiting`, `pc` and memory alone waits where it did. -/
theorem State.WaitsAtKeyWait.of_fields (hs : s.WaitsAtKeyWait) (params : t.params = s.params) (mem : t.mem = s.mem)
    (pc : t.pc = s.pc) (waiting : t.waiting = s.waiting) : t.WaitsAtKeyWait := by
  unfold State.WaitsAtKeyWait; rw [waiting, State.fetch_congr params mem pc]; exact hs

theorem State.WaitsAtKeyWait.tick (hs : s.WaitsAtKeyWait) : s.tick.WaitsAtKeyWait :=
  hs.of_fields s.tick_params s.tick_mem s.tick_pc s.tick_waiting

theorem State.WaitsAtKeyWait.markExecuted (hs : s.WaitsAtKeyWait) : s.markExecuted.WaitsAtKeyWait :=
  hs.of_fields s.markExecuted_params s.markExecuted_mem s.markExecuted_pc s.markExecuted_waiting

/-- Only `Fx0A` leaves the core waiting, and it leaves `pc` at itself (R131). -/
theorem waitsAtKeyWait_of_moves {op : Opcode} {i : Instr} (hf : s.fetch = some op) (hd : decodeWord op = .ok i)
    (hm : Moves i s t) (params : t.params = s.params) : t.WaitsAtKeyWait := by
  intro hwait
  cases hm with
  | wait x instr pc _ mem => exact ⟨op, x, (State.fetch_congr params mem pc).trans hf, instr ▸ hd⟩
  | advance _ _ _ waiting => rw [waiting] at hwait; cases hwait
  | store _ _ _ _ _ waiting => rw [waiting] at hwait; cases hwait
  | jump _ _ _ waiting => rw [waiting] at hwait; cases hwait
  | ret _ _ waiting => rw [waiting] at hwait; cases hwait
  | call _ _ _ _ waiting => rw [waiting] at hwait; cases hwait

/-- Every way a `Step` ends leaves a waiting core at an `Fx0A`: a fault changes neither `waiting` nor `pc` (R132). -/
theorem State.WaitsAtKeyWait.cycle (hs : s.WaitsAtKeyWait) (hc : CycleEnds s t) : t.WaitsAtKeyWait := by
  cases hc with
  | halted => exact hs
  | limited => exact hs.tick
  | fetchFault => exact hs
  | decodeFault => exact hs
  | execFault => exact hs
  | executed h _ _ _ hf hd _ _ hx hk =>
    exact (waitsAtKeyWait_of_moves hf hd (moves_of_commit hx hk h) hk.params).markExecuted.tick

/-- Settles O55, by the ways a transition ends. -/
theorem waitingStaysAtKeyWait : Obligations.WaitingStaysAtKeyWait := by
  intro s t hs hstep hload
  cases step_ends hstep with
  | idle => exact hs
  | reset => exact nofun
  | loadRom bytes he => exact absurd he (hload bytes)
  | key => exact hs
  | step args _ _ hends => exact State.WaitsAtKeyWait.cycle (s := { s.consume with args := args }) hs hends

end Sys2Proof.Machine
end

section
/-! SUPPORT. What the sound timer and the arguments of the step reach (spec/10_state.md R44; spec/46_keypad_timer.md R207). -/

namespace Sys2Proof.Machine

/-- A state with another sound timer and other arguments of the step. -/
def State.withStArgs (s : State) (b : Byte) (a : StepArgs) : State := { s with st := b, args := a }

section
variable (s : State) (b : Byte) (a : StepArgs)

@[simp] theorem State.readV_withStArgs (x : Reg) : (s.withStArgs b a).readV x = s.readV x := rfl
@[simp] theorem State.withStArgs_i : (s.withStArgs b a).i = s.i := rfl
@[simp] theorem State.withStArgs_pc : (s.withStArgs b a).pc = s.pc := rfl
@[simp] theorem State.withStArgs_stack : (s.withStArgs b a).stack = s.stack := rfl
@[simp] theorem State.lowestKey_withStArgs : (s.withStArgs b a).lowestKey = s.lowestKey := rfl
@[simp] theorem State.regsUpTo_withStArgs (x : Reg) : (s.withStArgs b a).regsUpTo x = s.regsUpTo x := rfl
@[simp] theorem State.memRead_withStArgs (p n : Nat) : (s.withStArgs b a).memRead p n = s.memRead p n := rfl

@[simp] theorem State.memWrite_withStArgs (p : Nat) (bytes : List Byte) :
    (s.withStArgs b a).memWrite p bytes = (s.memWrite p bytes).map (·.withStArgs b a) := by
  unfold State.memWrite; split <;> rfl

@[simp] theorem State.push_withStArgs (v : Addr) : (s.withStArgs b a).push v = (s.push v).map (·.withStArgs b a) := by
  by_cases h : s.sp < 16
  · rw [s.push_of_lt h, (s.withStArgs b a).push_of_lt h]; rfl
  · rw [s.push_of_full (Nat.le_of_not_lt h), (s.withStArgs b a).push_of_full (Nat.le_of_not_lt h)]; rfl

@[simp] theorem State.pop_withStArgs : (s.withStArgs b a).pop = s.pop.map fun p => (p.1, p.2.withStArgs b a) := by
  unfold State.pop; rw [State.withStArgs_stack]; cases s.stack <;> rfl

end

/-- An instruction that does not write `ST` executes alike whatever `ST` and the arguments of the step are, but that `Cxkk` reads
the random byte (R44, R134). -/
theorem exec_withStArgs {i : Instr} (s : State) (b : Byte) (a : StepArgs) (hst : ∀ x, i ≠ .ldStVx x)
    (hrnd : (∃ x kk, i = .rnd x kk) → a.rnd = s.args.rnd) :
    exec i (s.withStArgs b a) = mapNext (·.withStArgs b a) (exec i s) := by
  cases i
  case ldStVx x => exact absurd rfl (hst x)
  case rnd x kk =>
    show commit ((s.withStArgs b a).setV x (a.rnd &&& kk)) .next = _
    rw [hrnd ⟨x, kk, rfl⟩]; rfl
  case ret => simp only [exec, execRet, State.pop_withStArgs]; cases s.pop <;> rfl
  case call nnn => simp only [exec, execCall, State.push_withStArgs, State.withStArgs_pc]; cases s.push (s.pc + 2#16) <;> rfl
  case skp x => simp only [exec, execSkp, State.readV_withStArgs]; cases index16 (s.readV x) <;> rfl
  case sknp x => simp only [exec, execSknp, State.readV_withStArgs]; cases index16 (s.readV x) <;> rfl
  case ldFont x => simp only [exec, execLdFont, State.readV_withStArgs]; cases index16 (s.readV x) <;> rfl
  case ldVxKey x => simp only [exec, execLdVxKey, State.lowestKey_withStArgs]; cases s.lowestKey <;> rfl
  case drw x y n =>
    simp only [exec, execDrw, State.memRead_withStArgs, State.withStArgs_i]; cases s.memRead s.i.toNat n.val <;> rfl
  case loadRegs x =>
    simp only [exec, execLoadRegs, State.memRead_withStArgs, State.withStArgs_i]
    cases s.memRead s.i.toNat (x.val + 1) <;> rfl
  case ldBcd x =>
    simp only [exec, execLdBcd, State.memWrite_withStArgs, State.withStArgs_i, State.readV_withStArgs]
    cases s.memWrite s.i.toNat (bcdDigits (s.readV x)) <;> rfl
  case storeRegs x =>
    simp only [exec, execStoreRegs, State.memWrite_withStArgs, State.withStArgs_i, State.regsUpTo_withStArgs]
    cases s.memWrite s.i.toNat (s.regsUpTo x) <;> rfl
  all_goals rfl

/-- No instruction but `Fx18` reads or writes `ST` (R44, R207). -/
theorem exec_withSt {i : Instr} {s t : State} (b : Byte) (hst : ∀ x, i ≠ .ldStVx x) (hx : exec i s = .next t) :
    exec i { s with st := b } = .next { t with st := b } ∧ t.st = s.st := by
  have hwith (b : Byte) : exec i (s.withStArgs b s.args) = .next (t.withStArgs b s.args) := by
    rw [exec_withStArgs s b s.args hst fun _ => rfl, hx]; rfl
  have hkept : t.withStArgs s.st s.args = t := Host.Outcome.next.inj ((hwith s.st).symm.trans hx)
  have hsound : (t.withStArgs s.st s.args).st = t.st := congrArg State.st hkept
  have hargs : (t.withStArgs s.st s.args).args = t.args := congrArg State.args hkept
  have hu : t.withStArgs b s.args = { t with st := b } := by rw [← hargs]; rfl
  exact ⟨hu ▸ hwith b, hsound.symm⟩

/-- Settles O57: `Fx18` writes `ST` without reading it, and every other instruction does neither. -/
theorem soundTimerIsNeverRead : Obligations.SoundTimerIsNeverRead := by
  intro i s t b hx
  by_cases h : ∃ x, i = .ldStVx x
  · obtain ⟨x, rfl⟩ := h
    cases hx
    exact ⟨_, rfl, rfl, fun _ => rfl, fun hne => absurd rfl (hne x)⟩
  · have hst : ∀ x, i ≠ .ldStVx x := not_exists.mp h
    obtain ⟨hu, hkept⟩ := exec_withSt b hst hx
    exact ⟨_, hu, rfl, fun hi => absurd hi h, fun _ => ⟨hkept, rfl⟩⟩

end Sys2Proof.Machine
end

section
/-! SUPPORT. VF as the flag (spec/10_state.md R32; spec/43_alu.md R160): every flag is 0x00 or 0x01. -/

namespace Sys2Proof.Machine

/-- A flag is 0x00 or 0x01. -/
theorem flagByte_eq (c : Bool) : flagByte c = 0#8 ∨ flagByte c = 1#8 := by
  cases c
  · exact .inl rfl
  · exact .inr rfl

/-- A byte that is 0 or 1 as a number. -/
theorem eq_zero_or_one_of_toNat_lt {b : Byte} (h : b.toNat < 2) : b = 0#8 ∨ b = 1#8 := by bv_omega

/-- Bit 0 of a byte (R169). -/
theorem shiftedOutRight_eq (b : Byte) : shiftedOutRight b = 0#8 ∨ shiftedOutRight b = 1#8 :=
  eq_zero_or_one_of_toNat_lt <| by
    have h : (shiftedOutRight b).toNat = b.toNat % 2 := (BitVec.toNat_and b 1#8).trans (Nat.and_one_is_mod _)
    omega

/-- Bit 7 of a byte (R171). -/
theorem shiftedOutLeft_eq (b : Byte) : shiftedOutLeft b = 0#8 ∨ shiftedOutLeft b = 1#8 :=
  eq_zero_or_one_of_toNat_lt <| by
    have h : (shiftedOutLeft b).toNat = b.toNat / 2 ^ 7 := (BitVec.toNat_ushiftRight b 7).trans (Nat.shiftRight_eq_div_pow _ _)
    have := b.isLt
    omega

variable {s t : State}

/-- An instruction whose final register write is a flag to VF leaves 0x00 or 0x01 there (R33). -/
theorem readV_vf_of_flag {f : Byte} (hf : f = 0#8 ∨ f = 1#8) (hx : commit (s.setV vf f) .next = .next t) :
    t.readV vf = 0#8 ∨ t.readV vf = 1#8 := by
  have hflag : t.readV vf = f := by cases hx; exact s.readV_setV_self vf f
  rw [hflag]; exact hf

/-- An instruction whose destination is another register leaves VF alone. -/
theorem readV_vf_of_setV {x : Reg} {r : Byte} (hx : commit (s.setV x r) .next = .next t) (hne : x ≠ vf) :
    t.readV vf = s.readV vf := by
  cases hx
  exact s.readV_setV_of_ne hne.symm r

/-- Settles O28, by the last register write of each instruction: a flag, a destination other than VF, or none. -/
theorem onlySixInstructionsWriteTheFlag : Obligations.OnlySixInstructionsWriteTheFlag := by
  intro i s t hf hx
  cases i
  case addReg x y | subReg x y | subnReg x y => exact readV_vf_of_flag (flagByte_eq _) hx
  case shr x y => exact readV_vf_of_flag (shiftedOutRight_eq _) hx
  case shl x y => exact readV_vf_of_flag (shiftedOutLeft_eq _) hx
  case drw x y n =>
    have hr : s.i.toNat + n.val ≤ 4096 := by simpa [faultOf] using hf
    obtain ⟨hout, -⟩ | ⟨-, rows, -, h⟩ := execDrw_cases x y n s
    · exact absurd hr (Nat.not_le.mpr hout)
    · exact readV_vf_of_flag (flagByte_eq _) (h.symm.trans hx)
  case ldImm x kk | addImm x kk | ldReg x y | orReg x y | andReg x y | xorReg x y | rnd x kk | ldVxDt x =>
    exact readV_vf_of_setV hx
  case ldVxKey x =>
    intro hne
    cases hk : s.lowestKey with
    | none => cases (exec_ldVxKey_of_none x hk).symm.trans hx; rfl
    | some k => exact readV_vf_of_setV ((exec_ldVxKey_of_some x hk).symm.trans hx) hne
  case loadRegs x =>
    intro hne
    have hr : s.i.toNat + x.val + 1 ≤ 4096 := by simpa [faultOf] using hf
    have hlow : x.val + 1 ≤ 15 := by have : x.val ≠ 15 := Fin.val_ne_of_ne hne; omega
    cases (exec_loadRegs_of_inRange x hr).symm.trans hx
    exact (s.readV_setVs _ vf).trans (List.getD_eq_default _ _ (by simpa using hlow))
  case ret =>
    simp only [exec, execRet] at hx
    split at hx
    · cases hx; rfl
    · rename_i hp
      obtain ⟨rest, -, rfl⟩ := State.pop_eq_some s hp
      cases hx; rfl
  case call nnn =>
    simp only [exec, execCall] at hx
    split at hx
    · cases hx; rfl
    · rename_i hp
      obtain ⟨-, rfl⟩ := State.push_eq_some s hp
      cases hx; rfl
  case ldBcd x | storeRegs x =>
    simp only [exec, execLdBcd, execStoreRegs] at hx
    split at hx
    · cases hx; rfl
    · rename_i hw
      obtain ⟨-, rfl⟩ := State.memWrite_eq_some hw
      cases hx; rfl
  case skp x | sknp x | ldFont x =>
    simp only [exec, execSkp, execSknp, execLdFont] at hx
    split at hx
    · cases hx; rfl
    · cases hx; rfl
  all_goals cases hx; rfl

end Sys2Proof.Machine
end

section
/-! SUPPORT. A machine right after a reset has the values of R50's table (spec/10_state.md R50; spec/70_reset_and_hazards.md R250). -/

namespace Sys2Proof.Machine

/-- Row `r` of glyph `d` lies at `5*d + r` (R62). -/
theorem Memory.unlisted_glyph (font : Font) (d : Fin 16) (r : Fin 5) :
    Memory.unlisted font (5 * d.val + r.val) = font[d][r] := by
  have hd := d.isLt
  have hr := r.isLt
  have hglyph : (5 * d.val + r.val) / 5 = d.val := by omega
  have hrow : (5 * d.val + r.val) % 5 = r.val := by omega
  unfold Memory.unlisted
  rw [dif_pos (show 5 * d.val + r.val < 80 by omega)]
  simp only [hglyph, hrow]
  rfl

/-- Above the font an unlisted byte is 0 (R61). -/
theorem Memory.unlisted_of_le (font : Font) {a : Nat} (h : 80 ≤ a) : Memory.unlisted font a = 0#8 := by
  unfold Memory.unlisted
  rw [dif_neg (Nat.not_lt.mpr h)]

/-- A reset gives the values of R50's table, whatever the state was. -/
theorem hasResetValues_resetAt (s : State) (now : Time) : HasResetValues (s.resetAt now) where
  v x := Vector.getElem_replicate x.isLt
  i := rfl
  pc := rfl
  sp := rfl
  font := Memory.unlisted_glyph s.params.font
  mem _ h _ := Memory.unlisted_of_le s.params.font h
  display := Display.pixel_blank
  dt := rfl
  st := rfl
  keys k := Vector.getElem_replicate k.isLt
  waiting := rfl
  halted := rfl

/-- Settles O9: a start is a state right after a reset. -/
theorem resetValues : Obligations.ResetValues := fun s h => h.resetAt_eq ▸ hasResetValues_resetAt s 0

/-- Settles O10: the event is `resetAt`, which reads nothing of the core. -/
theorem resetFromAnyState : Obligations.ResetFromAnyState := fun s now h =>
  ⟨s.consume.resetAt now, step_of_reset h, hasResetValues_resetAt _ now, State.resetAt_tExecRef _ now, State.resetAt_tTickRef _ now⟩

end Sys2Proof.Machine
end

section
/-! SUPPORT. `Push` and `Pop`, and the key edges (spec/10_state.md R39, R45; spec/60_exceptions.md R239). -/

namespace Sys2Proof.Machine

/-- The entry just pushed is the highest one (R38). -/
theorem stackEntry_push_self (s : State) (a : Addr) : { s with stack := a :: s.stack }.stackEntry s.sp = some a := by
  simp [State.stackEntry, State.sp]

/-- A push leaves the entries below it where they were (R38). -/
theorem stackEntry_push_of_lt (s : State) (a : Addr) {j : Nat} (h : j < s.sp) :
    { s with stack := a :: s.stack }.stackEntry j = s.stackEntry j := by
  have hj : j < s.stack.reverse.length := by simpa [State.sp] using h
  simp only [State.stackEntry, List.reverse_cons]
  exact List.getElem?_append_left hj

/-- Settles O8: the stack is a list with the newest entry first, so a pop undoes a push. -/
theorem pushThenPop : Obligations.PushThenPop := fun s a _ =>
  ⟨fun h => s.push_of_full h.ge a, s.pop_eq_none.mpr,
    fun h => ⟨{ s with stack := a :: s.stack }, s.push_of_lt h a, rfl, stackEntry_push_self s a,
      fun _ => stackEntry_push_of_lt s a, rfl⟩⟩

/-- Both key edges are one write of one key (R239). -/
theorem perform_keyEdge (s : State) (k : KeyId) (down : Bool) :
    perform (if down then .keyDown k.val else .keyUp k.val) s = .next (s.setKey k down) := by
  have hedge : keyEdge k.val down s = .next (s.setKey k down) := dif_pos k.isLt
  cases down
  · exact hedge
  · exact hedge

/-- A key set to the level it has changes nothing (R239). -/
theorem setKey_of_key_eq {s : State} {k : KeyId} {b : Bool} (h : s.key k = b) : s.setKey k b = s := by
  have hkeys : s.keys.set k.val b = s.keys := h ▸ Vector.set_getElem_self k.isLt
  unfold State.setKey
  rw [hkeys]

/-- Settles O12: both edges are `setKey`, which writes one entry of the keypad. -/
theorem keyEdgesSetOneKey : Obligations.KeyEdgesSetOneKey := fun s k down =>
  ⟨s.setKey k down, perform_keyEdge s k down, (s.key_setKey k k down).trans (if_pos rfl),
    fun j hj => (s.key_setKey k j down).trans (if_neg hj), rfl, setKey_of_key_eq⟩

end Sys2Proof.Machine
end

section
/-! SUPPORT. What a stored run of bytes reads as, byte by byte, as one `MemRead`, and as the word a fetch answers (spec/20_memory.md
R63 to R67, R77). -/

namespace Sys2Proof.Machine

variable {s t : State} {a : Nat} {bytes : List Byte}

/-- A byte of the run is the byte stored, whatever else of the state has changed since (R65). -/
theorem State.readByte_stored (hm : Memory.wf s.params.font s.mem) (params : t.params = s.params)
    (mem : t.mem = Memory.putAll s.params.font s.mem a bytes) {j : Nat} (hj : j < bytes.length) :
    t.readByte (a + j) = bytes.getD j 0#8 := by
  have hin : a ≤ a + j ∧ a + j < a + bytes.length := by omega
  unfold State.readByte
  rw [params, mem, Memory.get_putAll bytes a (a + j) hm.1, if_pos hin, Nat.add_sub_cancel_left]

/-- The run is read back by one access of its length (R63, R65). -/
theorem State.memRead_stored (hm : Memory.wf s.params.font s.mem) (params : t.params = s.params)
    (mem : t.mem = Memory.putAll s.params.font s.mem a bytes) (hr : a + bytes.length ≤ 4096) :
    t.memRead a bytes.length = some bytes := by
  rw [t.memRead_of_inRange hr]
  refine congrArg some (List.ext_getElem (by simp) fun j _ hj => ?_)
  rw [List.getElem_map, List.getElem_range, State.readByte_stored hm params mem hj, List.getD_eq_getElem _ _ hj]

/-- A fetch where the run begins answers its first two bytes, the first the more significant (R67, R77). -/
theorem State.fetch_stored (hm : Memory.wf s.params.font s.mem) (params : t.params = s.params)
    (mem : t.mem = Memory.putAll s.params.font s.mem t.pc.toNat bytes) (hl : 2 ≤ bytes.length)
    (hr : t.pc.toNat + bytes.length ≤ 4096) :
    t.fetch = some (wordOfBytes (bytes.getD 0 0#8) (bytes.getD 1 0#8)) := by
  have hhi : t.readByte t.pc.toNat = bytes.getD 0 0#8 := State.readByte_stored hm params mem (j := 0) (by omega)
  have hlo : t.readByte (t.pc.toNat + 1) = bytes.getD 1 0#8 := State.readByte_stored hm params mem (by omega)
  rw [t.fetch_of_inRange (by omega), hhi, hlo]

end Sys2Proof.Machine
end

section
/-! SUPPORT. The memory primitives and `LoadRom` (spec/20_memory.md R63 to R65, R79). -/

namespace Sys2Proof.Machine

/-- Settles O6: outside the address space neither access answers, inside it the bytes stored are what is read. -/
theorem memoryReadAfterWrite : Obligations.MemoryReadAfterWrite := fun s a bytes hm =>
  ⟨fun h => ⟨s.memWrite_of_outside h, s.memRead_of_outside h⟩,
    fun h => ⟨_, s.memWrite_of_inRange h, State.memRead_stored hm rfl rfl h,
      (unchanged_stored hm a bytes .next).bytes, rfl⟩⟩

/-- Settles O11: an image that fits is one store at 0x200, and a longer one is refused. -/
theorem loadRomPlacesBytes : Obligations.LoadRomPlacesBytes := by
  refine fun s bytes hm => ⟨perform_loadRom_long s, fun h => ⟨_, perform_loadRom_fits s h, fun j hj => ?_,
    (unchanged_stored hm 0x200 bytes .next).bytes, rfl⟩⟩
  rw [List.getElem?_eq_getElem hj, ← List.getD_eq_getElem _ 0#8 hj, Option.some.injEq]
  exact State.readByte_stored hm (by rfl) (by rfl) hj

end Sys2Proof.Machine
end

section
/-! SUPPORT. A canonical memory is a sorted list whose members its reads determine (spec/20_memory.md R73; log entry 11). -/

namespace Sys2Proof.Machine

variable {font : Font} {m : Memory}

/-- An address that does not read as unlisted is listed, with the byte it reads as. -/
theorem Memory.mem_of_get_ne_unlisted {a : Nat} (h : Memory.get font m a ≠ Memory.unlisted font a) :
    (a, Memory.get font m a) ∈ m := by
  induction m with
  | nil => exact absurd rfl h
  | cons c m ih =>
    obtain ⟨b, u⟩ := c
    unfold Memory.get at h ⊢
    by_cases hab : a = b
    · rw [if_pos hab, hab]; exact List.mem_cons_self
    · rw [if_neg hab] at h ⊢; exact List.mem_cons_of_mem _ (ih h)

/-- What a canonical memory lists: the bytes that differ from what their addresses read as unlisted. -/
theorem Memory.mem_iff_get (hm : Memory.wf font m) (c : Host.Cell) :
    c ∈ m ↔ Memory.get font m c.1 = c.2 ∧ c.2 ≠ Memory.unlisted font c.1 := by
  refine ⟨fun hc => ⟨Memory.get_of_mem hm.1 hc, (hm.2 c hc).2⟩, fun ⟨hget, hne⟩ => ?_⟩
  have hc := Memory.mem_of_get_ne_unlisted (hget ▸ hne)
  rwa [hget] at hc

/-- Settles O7: the reads say which bytes are listed, and the addresses say in which order. -/
theorem canonicalMemoriesAreEqual : Obligations.CanonicalMemoriesAreEqual := by
  intro font m n hm hn hreads
  have hmem (c : Host.Cell) : c ∈ m ↔ c ∈ n := by rw [Memory.mem_iff_get hm, Memory.mem_iff_get hn, hreads]
  have : Std.Irrefl fun c d : Host.Cell => c.1 < d.1 := ⟨fun c => lt_irrefl c.1⟩
  have : Std.Antisymm fun c d : Host.Cell => c.1 < d.1 := ⟨fun _ _ h h' => absurd h' h.asymm⟩
  exact hm.1.eq_of_mem_iff hn.1 hmem

end Sys2Proof.Machine
end

section
/-! SUPPORT. The fetch (spec/20_memory.md R67, R77; spec/40_step_cycle.md R125). -/

namespace Sys2Proof.Machine

/-- Settles O44: the store begins at the `pc` the instruction leaves, and its run holds at least a word. -/
theorem selfModifyingCodeIsFetched : Obligations.SelfModifyingCodeIsFetched := by
  intro x s t hm hi _
  constructor
  · intro hx hx1 hr
    have hlen : (s.regsUpTo x).length = x.val + 1 := length_regsUpTo s x
    have hend : (s.pc + 2#16).toNat + (s.regsUpTo x).length ≤ 4096 := by rw [hlen, ← hi]; exact hr
    obtain rfl := Host.Outcome.next.inj ((exec_storeRegs_of_inRange x hr).symm.trans hx)
    rw [← getD_regsUpTo s x (Fin.zero_le x) 0#8, ← getD_regsUpTo s x (j := 1) hx1 0#8]
    exact State.fetch_stored hm rfl (hi ▸ rfl) (by omega) hend
  · intro hx hr
    obtain rfl := Host.Outcome.next.inj ((exec_ldBcd_of_inRange x hr).symm.trans hx)
    exact State.fetch_stored (bytes := bcdDigits (s.readV x)) hm rfl (hi ▸ rfl) (Nat.le_succ 2) (hi ▸ hr)

/-- Settles O21: up to 0xFFE both bytes of the word are inside the address space, and above it the fetch faults. -/
theorem fetchReadsBigEndianOrFaults : Obligations.FetchReadsBigEndianOrFaults := by
  constructor
  · intro s hpc
    exact ⟨_, s.fetch_of_inRange (by omega), toNat_wordOfBytes _ _⟩
  · intro s args he hlive hdue hpc
    have hfetch : { s.consume with args := args }.fetch = none := (State.fetch_eq_none_iff _).mpr hpc
    exact ⟨_, (step_of_step he).trans (cycle_of_noFetch hlive hdue hfetch), rfl, rfl, rfl, rfl, rfl⟩

end Sys2Proof.Machine
end

section
/-! SUPPORT. The rows of the opcode map and the round trips of the encoding (spec/30_encoding.md R92, R95, R103, R106). -/

namespace Sys2Proof

/-- The instruction of the same row with its operands read from the fields of a word (R92). -/
def Instr.withFields (i : Instr) (op : Opcode) : Instr :=
  match i with
  | .cls => .cls
  | .ret => .ret
  | .jp _ => .jp (fieldNnn op)
  | .call _ => .call (fieldNnn op)
  | .seImm _ _ => .seImm (fieldX op) (fieldKk op)
  | .sneImm _ _ => .sneImm (fieldX op) (fieldKk op)
  | .seReg _ _ => .seReg (fieldX op) (fieldY op)
  | .ldImm _ _ => .ldImm (fieldX op) (fieldKk op)
  | .addImm _ _ => .addImm (fieldX op) (fieldKk op)
  | .ldReg _ _ => .ldReg (fieldX op) (fieldY op)
  | .orReg _ _ => .orReg (fieldX op) (fieldY op)
  | .andReg _ _ => .andReg (fieldX op) (fieldY op)
  | .xorReg _ _ => .xorReg (fieldX op) (fieldY op)
  | .addReg _ _ => .addReg (fieldX op) (fieldY op)
  | .subReg _ _ => .subReg (fieldX op) (fieldY op)
  | .shr _ _ => .shr (fieldX op) (fieldY op)
  | .subnReg _ _ => .subnReg (fieldX op) (fieldY op)
  | .shl _ _ => .shl (fieldX op) (fieldY op)
  | .sneReg _ _ => .sneReg (fieldX op) (fieldY op)
  | .ldI _ => .ldI (fieldNnn op)
  | .jpV0 _ => .jpV0 (fieldNnn op)
  | .rnd _ _ => .rnd (fieldX op) (fieldKk op)
  | .drw _ _ _ => .drw (fieldX op) (fieldY op) (fieldN op)
  | .skp _ => .skp (fieldX op)
  | .sknp _ => .sknp (fieldX op)
  | .ldVxDt _ => .ldVxDt (fieldX op)
  | .ldVxKey _ => .ldVxKey (fieldX op)
  | .ldDtVx _ => .ldDtVx (fieldX op)
  | .ldStVx _ => .ldStVx (fieldX op)
  | .addI _ => .addI (fieldX op)
  | .ldFont _ => .ldFont (fieldX op)
  | .ldBcd _ => .ldBcd (fieldX op)
  | .storeRegs _ => .storeRegs (fieldX op)
  | .loadRegs _ => .loadRegs (fieldX op)

/-- Format XSUB is format XKK with a fixed byte (R93). -/
theorem fieldX_xsub (opc : BitVec 4) (x : Reg) (sub : Byte) : fieldX (encodeXsub opc x sub) = x := fieldX_xkk opc x sub

/-- The fields carry no part of the row's choice. -/
@[simp] theorem matchOf_withFields (i : Instr) (op : Opcode) : matchOf (i.withFields op) = matchOf i := by
  cases i <;> rfl

/-- The word of an instruction carries its operands in the fields of its format. -/
theorem withFields_encode (i : Instr) : i.withFields (encode i) = i := by
  cases i
  case cls | ret => rfl
  case jp nnn | call nnn | ldI nnn | jpV0 nnn => simp only [encode, Instr.withFields, fieldNnn_nnn]
  case seImm x kk | sneImm x kk | ldImm x kk | addImm x kk | rnd x kk =>
    simp only [encode, Instr.withFields, fieldX_xkk, fieldKk_xkk]
  case drw x y n => simp only [encode, Instr.withFields, fieldX_xyn, fieldY_xyn, fieldN_xyn]
  case seReg x y | sneReg x y | ldReg x y | orReg x y | andReg x y | xorReg x y | addReg x y | subReg x y | shr x y
      | subnReg x y | shl x y =>
    simp only [encode, Instr.withFields, fieldX_xyn, fieldY_xyn]
  case skp x | sknp x | ldVxDt x | ldVxKey x | ldDtVx x | ldStVx x | addI x | ldFont x | ldBcd x | storeRegs x
      | loadRegs x =>
    simp only [encode, Instr.withFields, fieldX_xsub]

end Sys2Proof

namespace Sys2Proof.Machine

/-- Every row of the opcode map: its words decode to its instruction with their fields (R95, R103). -/
theorem encodes_row (i : Instr) : Encodes (maskOf i) (matchOf i) i.withFields := by
  cases i <;> dsimp only [maskOf, matchOf]
  case cls | ret => exact encodes_of_word rfl
  case jp | call | ldI | jpV0 | seImm | sneImm | ldImm | addImm | rnd | drw =>
    exact encodes_of_n3 _ rfl fun op h => by unfold decodeWord; rw [h]; rfl
  case seReg | sneReg | ldReg | orReg | andReg | xorReg | addReg | subReg | shr | subnReg | shl =>
    exact encodes_of_n3_n0 _ _ rfl rfl fun op h h0 => by unfold decodeWord; rw [h, h0]; rfl
  case skp | sknp | ldVxDt | ldVxKey | ldDtVx | ldStVx | addI | ldFont | ldBcd | storeRegs | loadRegs =>
    exact encodes_of_n3_kk _ _ rfl rfl fun op h hk => by unfold decodeWord; rw [h, hk]; rfl

open Laws.EncodeMatch in
/-- The word of an instruction is a word of its row (R103). -/
theorem encode_and_maskOf : ∀ i : Instr, encode i &&& maskOf i = matchOf i
  | .cls => cls | .ret => ret | .jp nnn => jp nnn | .call nnn => call nnn | .ldI nnn => ldI nnn | .jpV0 nnn => jpV0 nnn
  | .seImm x kk => seImm x kk | .sneImm x kk => sneImm x kk | .ldImm x kk => ldImm x kk | .addImm x kk => addImm x kk
  | .rnd x kk => rnd x kk | .drw x y n => drw x y n | .seReg x y => seReg x y | .sneReg x y => sneReg x y
  | .ldReg x y => ldReg x y | .orReg x y => orReg x y | .andReg x y => andReg x y | .xorReg x y => xorReg x y
  | .addReg x y => addReg x y | .subReg x y => subReg x y | .shr x y => shr x y | .subnReg x y => subnReg x y
  | .shl x y => shl x y | .skp x => skp x | .sknp x => sknp x | .ldVxDt x => ldVxDt x | .ldVxKey x => ldVxKey x
  | .ldDtVx x => ldDtVx x | .ldStVx x => ldStVx x | .addI x => addI x | .ldFont x => ldFont x | .ldBcd x => ldBcd x
  | .storeRegs x => storeRegs x | .loadRegs x => loadRegs x

/-- The word is in the row of its instruction and carries the operands in its fields. -/
@[simp] theorem decodeWord_encode (i : Instr) : decodeWord (encode i) = .ok i :=
  (encodes_row i _ (encode_and_maskOf i)).trans (congrArg _ (withFields_encode i))

/-- Settles O1: the two bytes make the word again, and the word of an instruction decodes to it. -/
theorem decodeEncodeRoundTrip : Obligations.DecodeEncodeRoundTrip := by
  intro i rest
  rw [decode_bytesOfWord, decodeWord_encode]
  rfl

end Sys2Proof.Machine
end

section
/-! SUPPORT. The instruction decoded determines the word, and the rows of the opcode map are disjoint (spec/30_encoding.md R95,
R103, R106). -/

namespace Sys2Proof.Machine

theorem encode_of_decodeFamily0 {op : Opcode} {i : Instr} (h : decodeFamily0 op = .ok i) : encode i = op := by
  unfold decodeFamily0 at h
  split_ifs at h with hcls hret
  · cases h; exact hcls.symm
  · cases h; exact hret.symm

theorem encode_of_decodeFamily8 {x y : Reg} {n0 : BitVec 4} {i : Instr} (h : decodeFamily8 x y n0 = .ok i) :
    encode i = encodeXyn 0x8#4 x y n0 := by
  unfold decodeFamily8 at h
  split at h <;> cases h <;> rfl

theorem encode_of_decodeFamilyE {x : Reg} {kk : Byte} {i : Instr} (h : decodeFamilyE x kk = .ok i) :
    encode i = encodeXkk 0xE#4 x kk := by
  unfold decodeFamilyE at h
  split at h <;> cases h <;> rfl

theorem encode_of_decodeFamilyF {x : Reg} {kk : Byte} {i : Instr} (h : decodeFamilyF x kk = .ok i) :
    encode i = encodeXkk 0xF#4 x kk := by
  unfold decodeFamilyF at h
  split at h <;> cases h <;> rfl

section
variable {op : Opcode} {opc : BitVec 4} (hn : fieldN3 op = opc)
include hn

/-- A word of format NNN from its address. -/
theorem encodeNnn_of_fieldN3 : encodeNnn opc (fieldNnn op) = op := hn ▸ encodeNnn_fields op

/-- A word of format XKK from its register and byte. -/
theorem encodeXkk_of_fieldN3 : encodeXkk opc (fieldX op) (fieldKk op) = op := hn ▸ encodeXkk_fields op

/-- A word of format XYN from its registers and trailing nibble. -/
theorem encodeXyn_of_fieldN3 : encodeXyn opc (fieldX op) (fieldY op) (fieldN0 op) = op := hn ▸ encodeXyn_fields op

/-- Where the leading nibble is given, the mask `F00F` asks for the trailing nibble alone. -/
theorem and_F00F_eq_iff (n : BitVec 4) : op &&& 0xF00F#16 = encodeXyn opc 0 0 n ↔ fieldN0 op = n := by
  constructor
  · intro h
    exact (fieldN0_of_masked h rfl).trans (fieldN0_xyn opc 0 0 n)
  · intro h
    rw [← encodeXyn_of_fieldN3 hn, h, Laws.EncodeMatch.xyn_and_F00F]

end

/-- A word is the encoding of what it decodes to, by the arms of the decode tree (R95). Its sixteen arms `h_1` to `h_16` are the
leading nibbles 0 to F in order, taken together where their words have one format. -/
theorem encode_of_decodeWord {op : Opcode} {i : Instr} (h : decodeWord op = .ok i) : encode i = op := by
  unfold decodeWord at h
  split at h
  case h_1 hn => exact encode_of_decodeFamily0 h
  case h_2 hn | h_3 hn | h_11 hn | h_12 hn => cases h; exact encodeNnn_of_fieldN3 hn
  case h_4 hn | h_5 hn | h_7 hn | h_8 hn | h_13 hn => cases h; exact encodeXkk_of_fieldN3 hn
  case h_6 hn | h_10 hn =>
    split_ifs at h with h0
    cases h
    have hw := encodeXyn_of_fieldN3 hn
    rwa [h0] at hw
  case h_9 hn => exact (encode_of_decodeFamily8 h).trans (encodeXyn_of_fieldN3 hn)
  case h_14 hn => cases h; exact encodeXyn_of_fieldN3 hn
  case h_15 hn => exact (encode_of_decodeFamilyE h).trans (encodeXkk_of_fieldN3 hn)
  case h_16 =>
    have hn : fieldN3 op = 0xF#4 := nibble_left _ fun k => by fin_cases k <;> assumption
    exact (encode_of_decodeFamilyF h).trans (encodeXkk_of_fieldN3 hn)

/-- Settles O2, by the arms of the decode tree. -/
theorem encodeDecodeRoundTrip : Obligations.EncodeDecodeRoundTrip := fun _ _ => encode_of_decodeWord

/-- Settles O3: a decoded word is its instruction's encoding, hence in its row; a word of two rows would decode to an instruction
of each. -/
theorem decoderFollowsOpcodeMap : Obligations.DecoderFollowsOpcodeMap := by
  refine ⟨fun op i h => ?_, fun op i h => ⟨_, encodes_row i op h, matchOf_withFields i op⟩, fun op i j hi hj => ?_⟩
  · rw [← encode_of_decodeWord h]
    exact encode_and_maskOf i
  · have hij : i.withFields op = j.withFields op :=
      Except.ok.inj ((encodes_row i op hi).symm.trans (encodes_row j op hj))
    rw [← matchOf_withFields i op, hij, matchOf_withFields]

end Sys2Proof.Machine
end

section
/-! SUPPORT. The families with an illegal branch, and a word of each family (spec/30_encoding.md R95 to R98, R103). -/

namespace Sys2Proof.Machine

section
variable {op : Opcode}

/-- The arm of family 0 (R95). -/
theorem decodeWord_of_family0 (hn : fieldN3 op = 0x0#4) : decodeWord op = decodeFamily0 op := by
  unfold decodeWord; rw [hn]; rfl

/-- The arm of family 5, on the mask of its one row (R95, R97). -/
theorem decodeWord_of_family5 (hn : fieldN3 op = 0x5#4) : decodeWord op =
    if op &&& 0xF00F#16 = 0x5000#16 then .ok (.seReg (fieldX op) (fieldY op)) else .error .family5 := by
  unfold decodeWord; rw [hn]; exact if_congr (and_F00F_eq_iff hn 0x0#4).symm rfl rfl

/-- The arm of family 9, on the mask of its one row (R95, R97). -/
theorem decodeWord_of_family9 (hn : fieldN3 op = 0x9#4) : decodeWord op =
    if op &&& 0xF00F#16 = 0x9000#16 then .ok (.sneReg (fieldX op) (fieldY op)) else .error .family9 := by
  unfold decodeWord; rw [hn]; exact if_congr (and_F00F_eq_iff hn 0x0#4).symm rfl rfl

/-- The arm of family 8 (R95). -/
theorem decodeWord_of_family8 (hn : fieldN3 op = 0x8#4) :
    decodeWord op = decodeFamily8 (fieldX op) (fieldY op) (fieldN0 op) := by
  unfold decodeWord; rw [hn]; rfl

/-- The arm of family E (R95). -/
theorem decodeWord_of_familyE (hn : fieldN3 op = 0xE#4) : decodeWord op = decodeFamilyE (fieldX op) (fieldKk op) := by
  unfold decodeWord; rw [hn]; rfl

/-- The arm of family F (R95). -/
theorem decodeWord_of_familyF (hn : fieldN3 op = 0xF#4) : decodeWord op = decodeFamilyF (fieldX op) (fieldKk op) := by
  unfold decodeWord; rw [hn]; rfl

end

theorem decodeFamily8_eq_error_iff (x y : Reg) (n0 : BitVec 4) :
    decodeFamily8 x y n0 = .error .family8 ↔
      n0 ∉ [0x0#4, 0x1#4, 0x2#4, 0x3#4, 0x4#4, 0x5#4, 0x6#4, 0x7#4, 0xE#4] := by
  unfold decodeFamily8
  split
  case h_10 => refine iff_of_true rfl ?_; simp only [List.mem_cons, List.not_mem_nil]; tauto
  all_goals simp

theorem decodeFamilyE_eq_error_iff (x : Reg) (kk : Byte) :
    decodeFamilyE x kk = .error .familyE ↔ kk ∉ [0x9E#8, 0xA1#8] := by
  unfold decodeFamilyE
  split
  case h_3 => refine iff_of_true rfl ?_; simp only [List.mem_cons, List.not_mem_nil]; tauto
  all_goals simp

theorem decodeFamilyF_eq_error_iff (x : Reg) (kk : Byte) :
    decodeFamilyF x kk = .error .familyF ↔
      kk ∉ [0x07#8, 0x0A#8, 0x15#8, 0x18#8, 0x1E#8, 0x29#8, 0x33#8, 0x55#8, 0x65#8] := by
  unfold decodeFamilyF
  split
  case h_10 => refine iff_of_true rfl ?_; simp only [List.mem_cons, List.not_mem_nil]; tauto
  all_goals simp

/-- Settles O4: the leading nibble gives the arm of the decode tree, and the arm says which sub-opcodes are left over. -/
theorem illegalWordsAreRejected : Obligations.IllegalWordsAreRejected := by
  refine ⟨fun _ => decodeWord_of_family0, fun _ => decodeWord_of_family5, fun _ => decodeWord_of_family9,
    fun op hn => ?_, fun op hn => ?_, fun op hn => ?_, rfl, rfl, rfl, rfl, rfl⟩
  · rw [decodeWord_of_family8 hn]; exact decodeFamily8_eq_error_iff _ _ _
  · rw [decodeWord_of_familyE hn]; exact decodeFamilyE_eq_error_iff _ _
  · rw [decodeWord_of_familyF hn]; exact decodeFamilyF_eq_error_iff _ _

/-- Settles O5: each word is the encoding of the instruction beside it. -/
theorem decodeKnownWords : Obligations.DecodeKnownWords :=
  ⟨decodeWord_encode .cls, decodeWord_encode (.jp 0x204), decodeWord_encode (.call 0x20A),
    decodeWord_encode (.seImm 15 1), decodeWord_encode (.sneImm 10 0x10), decodeWord_encode (.seReg 1 2),
    decodeWord_encode (.ldImm 10 0x2F), decodeWord_encode (.addImm 0 10), decodeWord_encode (.shl 1 2),
    decodeWord_encode (.sneReg 3 3), decodeWord_encode (.ldI 0x300), decodeWord_encode (.jpV0 0xFFF),
    decodeWord_encode (.rnd 3 0x0F), decodeWord_encode (.drw 7 10 9), decodeWord_encode (.sknp 10),
    decodeWord_encode (.loadRegs 10)⟩

end Sys2Proof.Machine
end

section
/-! SUPPORT. What a transition answers, event by event, and how a script or a halted core decides it (spec/40_step_cycle.md R121 to
R123, R133, R137). -/

namespace Sys2Proof.Machine

variable {s t : State}

/-- The first event of the script is what the host does next (R121; log entry 1). -/
theorem State.nextEvent_of_script {e : Event} {rest : List Event} (h : s.script = e :: rest) : s.nextEvent = some e := by
  unfold State.nextEvent; rw [h]

/-- A transition performs the host's next event whole (R120, R135). -/
theorem step_of_event {e : Event} (h : s.nextEvent = some e) : step s = perform e s.consume := by
  unfold step; rw [h]

/-- An event the host may issue ends in a next state. -/
theorem perform_of_wellFormed {e : Event} (h : e.wellFormed = true) (s : State) : ∃ t, perform e s = .next t := by
  cases e with
  | reset now => exact ⟨_, rfl⟩
  | loadRom bytes => exact ⟨_, perform_loadRom_fits s (of_decide_eq_true h)⟩
  | keyDown k => exact ⟨_, dif_pos (of_decide_eq_true h)⟩
  | keyUp k => exact ⟨_, dif_pos (of_decide_eq_true h)⟩
  | step args =>
    obtain ⟨t, ht, -⟩ := cycle_ends { s with args := args }
    exact ⟨t, ht⟩

/-- An event the host must not issue is refused (R79, R121; U19, U20). -/
theorem perform_of_illFormed {e : Event} (h : e.wellFormed = false) (s : State) : ∃ r, perform e s = .refused r := by
  cases e with
  | reset now => cases h
  | loadRom bytes => exact ⟨_, perform_loadRom_long s (Nat.lt_of_not_le (of_decide_eq_false h))⟩
  | keyDown k => exact ⟨_, dif_neg (of_decide_eq_false h)⟩
  | keyUp k => exact ⟨_, dif_neg (of_decide_eq_false h)⟩
  | step args => cases h

/-- A transition answers a next state, unless the script gives an event the host must not issue: then it is refused (log entry 14). -/
theorem step_answers (s : State) :
    (∃ t, step s = .next t) ∨ ((∃ r, step s = .refused r) ∧ ∃ e rest, s.script = e :: rest ∧ e.wellFormed = false) := by
  cases he : s.nextEvent with
  | none => exact .inl ⟨_, step_of_none he⟩
  | some e =>
    rw [step_of_event he]
    cases hw : e.wellFormed with
    | true => exact .inl (perform_of_wellFormed hw _)
    | false =>
      obtain ⟨rest, hs⟩ := State.nextEvent_of_illFormed he hw
      exact .inr ⟨perform_of_illFormed hw _, e, rest, hs, hw⟩

/-- Settles O20: a `Step` is an event the host may issue, and a transition that is no next state is a refusal of the script's. -/
theorem everyStepAnswers : Obligations.EveryStepAnswers := by
  refine ⟨fun s args he => ?_, fun s => ⟨fun ⟨r, hr⟩ => ?_, fun ⟨e, rest, hs, hw⟩ => ?_⟩, fun s f hf => ?_⟩
  · rw [step_of_event he]
    exact perform_of_wellFormed rfl _
  · obtain ⟨t, ht⟩ | ⟨-, hscript⟩ := step_answers s
    · cases hr.symm.trans ht
    · exact hscript
  · rw [step_of_event (State.nextEvent_of_script hs)]
    exact perform_of_illFormed hw _
  · obtain ⟨t, ht⟩ | ⟨⟨r, hr⟩, -⟩ := step_answers s
    · cases hf.symm.trans ht
    · cases hf.symm.trans hr

/-- Settles O13: the `Step` is R137's cycle in the state with its arguments, and its fetch reads the same word. -/
theorem stepRunsDecodedInstruction : Obligations.StepRunsDecodedInstruction := fun _ _ _ _ he hlive hdue hfetch hd =>
  (step_of_step he).trans (cycle_of_decoded hlive hdue hfetch hd)

/-- A `Step` of a halted core leaves the core as it is (R123). -/
theorem CycleEnds.eq_of_halted (hc : CycleEnds s t) (h : s.halted = true) : t = s := by
  cases hc with
  | halted => rfl
  | limited hlive | fetchFault hlive | decodeFault hlive | execFault hlive | executed hlive => cases hlive.symm.trans h

/-- Settles O14: of the ways a transition ends, only a reset writes `halted` in a halted core. -/
theorem haltedUntilReset : Obligations.HaltedUntilReset := by
  refine ⟨fun s args h he => ⟨(step_of_step he).trans (cycle_of_halted h), rfl⟩, fun s t h hstep hlive => ?_, fun s k _ =>
    ⟨⟨_, perform_keyEdge s k true, by simp⟩, ⟨_, perform_keyEdge s k false, by simp⟩⟩⟩
  cases step_ends hstep with
  | reset now he => exact ⟨now, he⟩
  | idle | loadRom | key => cases hlive.symm.trans h
  | step args _ _ hends =>
    obtain rfl := hends.eq_of_halted h
    cases hlive.symm.trans h

/-- A `Step` that leaves a running core halted is one fault entry, with the word where one was fetched (R132, R224). -/
theorem CycleEnds.eq_enterFault (hc : CycleEnds s t) (hlive : s.halted = false) (ht : t.halted = true) :
    ∃ c op info, t = s.enterFault c op info ∧ ∀ w, s.fetch = some w → op = w := by
  cases hc with
  | halted => cases hlive.symm.trans ht
  | limited => cases hlive.symm.trans (s.tick_halted.symm.trans ht)
  | fetchFault _ _ hf => exact ⟨_, _, _, rfl, fun w hw => nomatch hf.symm.trans hw⟩
  | decodeFault _ _ op _ hf => exact ⟨_, _, _, rfl, fun w hw => Option.some.inj (hf.symm.trans hw)⟩
  | execFault _ _ op i hf hd =>
    exact ⟨_, _, _, rfl, fun w hw => (encode_of_decodeWord hd).trans (Option.some.inj (hf.symm.trans hw))⟩
  | executed _ _ _ _ _ _ w e _ hk =>
    rw [State.tick_halted, State.markExecuted_halted] at ht
    cases hlive.symm.trans (hk.halted.symm.trans ht)

/-- Settles O23: only a `Step` halts a running core, and it does so by fault entry. -/
theorem faultingStepCommitsNothing : Obligations.FaultingStepCommitsNothing := by
  intro s t hstep hlive ht
  cases step_ends hstep with
  | idle | loadRom | key => cases hlive.symm.trans ht
  | reset => cases ht
  | step args _ _ hends =>
    obtain ⟨c, op, info, rfl, hword⟩ := hends.eq_enterFault hlive ht
    exact ⟨rfl, nofun, rfl, rfl, hword⟩

end Sys2Proof.Machine
end

section
/-! SUPPORT. The tick as natural numbers, and where it stands in a `Step` (spec/40_step_cycle.md R124, R129, R130; spec/60_exceptions.md
R236 to R238). -/

namespace Sys2Proof.Machine

variable {s : State}

/-- `max(t - 1, 0)` (R236). -/
@[simp] theorem toNat_decrement (b : Byte) : (decrement b).toNat = b.toNat - 1 := by
  unfold decrement
  split
  · rename_i h; rw [h]; rfl
  · bv_omega

theorem State.toNat_tick_dt (s : State) : s.tick.dt.toNat = if s.tickDue then s.dt.toNat - 1 else s.dt.toNat := by
  rw [State.tick_dt, apply_ite BitVec.toNat, toNat_decrement]

theorem State.toNat_tick_st (s : State) : s.tick.st.toNat = if s.tickDue then s.st.toNat - 1 else s.st.toNat := by
  rw [State.tick_st, apply_ite BitVec.toNat, toNat_decrement]

/-- A tick that is not due does nothing (R236). -/
theorem State.tick_of_notDue (h : s.tickDue = false) : s.tick = s := by
  unfold State.tick; rw [h]; rfl

/-- A tick by the Boolean interface writes `DT` and `ST` only (R236, R238). -/
theorem State.tick_of_flags {execDue tickDue : Bool} (h : s.args.due = .flags execDue tickDue) :
    s.tick = { s with dt := s.tick.dt, st := s.tick.st } := by
  have href : s.args.timeOr s.tTickRef = s.tTickRef := by simp only [StepArgs.timeOr, h]
  unfold State.tick
  rw [href]
  split <;> rfl

/-- An executed step has no time to mark by the Boolean interface (R238). -/
theorem State.finishExecuted_of_flags {execDue tickDue : Bool} (h : s.args.due = .flags execDue tickDue) :
    s.finishExecuted = if s.halted then s else s.tick := by
  have hmark : s.markExecuted = s := by simp only [State.markExecuted, StepArgs.timeOr, h]
  unfold State.finishExecuted
  rw [hmark]

/-- Settles O15: a rate-limited `Step` is the tick alone. -/
theorem rateLimitedStepOnlyTicks : Obligations.RateLimitedStepOnlyTicks := by
  intro s tickDue rnd he hlive
  exact ⟨_, (step_of_step he).trans (cycle_of_limited hlive rfl), State.tick_of_flags rfl, State.toNat_tick_dt _,
    State.toNat_tick_st _⟩

/-- A `Step` whose instruction commits ends with the tick of what it committed (R129). -/
theorem cycle_of_commit {op : Opcode} {i : Instr} {w : State} {e : Effect} (h : s.halted = false) (he : s.execDue = true)
    (hf : s.fetch = some op) (hd : decodeWord op = .ok i) (hx : exec i s = commit w e) (hw : w.halted = false) :
    cycle s = .next { w with pc := e.apply w.pc, waiting := e.isWait }.markExecuted.tick := by
  rw [cycle_of_decoded h he hf hd, hx]
  exact congrArg Host.Outcome.next (if_neg (by simp [hw]))

/-- Settles O18: the tick is taken of the state the instruction committed. -/
theorem tickComesAfterInstruction : Obligations.TickComesAfterInstruction := by
  intro s op x hlive hexec htick hf
  have hdt (w : State) (hw : w.tickDue = true) : w.tick.dt.toNat = w.dt.toNat - 1 := (w.toNat_tick_dt).trans (if_pos hw)
  have hst (w : State) (hw : w.tickDue = true) : w.tick.st.toNat = w.st.toNat - 1 := (w.toNat_tick_st).trans (if_pos hw)
  refine ⟨fun hd => ⟨_, cycle_of_commit hlive hexec hf hd rfl hlive, ?_, hdt _ htick⟩,
    fun hd => ⟨_, cycle_of_commit hlive hexec hf hd rfl hlive, hdt _ htick, hst _ htick⟩,
    fun hd => ⟨_, cycle_of_commit hlive hexec hf hd rfl hlive, hst _ htick, hdt _ htick⟩⟩
  unfold State.readV
  rw [State.tick_v]
  exact s.readV_setV_self x s.dt

end Sys2Proof.Machine
end

section
/-! SUPPORT. What the arguments of a `Step` reach: the random byte `Cxkk` alone, and `tick_due` the tick alone
(spec/40_step_cycle.md R129, R130, R134; spec/60_exceptions.md R236, R237, R241). -/

namespace Sys2Proof.Machine

variable {s : State}

/-- Every instruction ends in a next state and leaves the arguments of its step alone (R128, R132). -/
theorem exec_answers (i : Instr) (s : State) : ∃ t, exec i s = .next t ∧ t.args = s.args := by
  obtain ⟨c, info, hx⟩ | ⟨w, e, hx, hk⟩ := exec_cases i s
  · exact ⟨_, hx, rfl⟩
  · exact ⟨_, hx, hk.args⟩

/-- Settles O58: `Fx18`, the one writer of `ST`, is seen to read no argument, and the other instructions by `exec_withStArgs`. -/
theorem randomByteReachesOnlyRnd : Obligations.RandomByteReachesOnlyRnd := by
  intro i s t r hrnd hx
  by_cases hst : ∃ x, i = .ldStVx x
  · obtain ⟨x, rfl⟩ := hst
    cases hx
    rfl
  · have hst : ∀ x, i ≠ .ldStVx x := not_exists.mp hst
    obtain ⟨u, hu, hargs⟩ := exec_answers i s
    obtain rfl : u = t := Host.Outcome.next.inj (hu.symm.trans hx)
    have hsound : u.st = s.st := (exec_withSt s.st hst hx).2
    have hwith := exec_withStArgs s s.st { s.args with rnd := r } hst fun ⟨x, kk, hi⟩ => absurd hi (hrnd x kk)
    rw [hx] at hwith
    rw [hargs]
    refine hwith.trans ?_
    show Host.Outcome.next { u with st := s.st, args := { s.args with rnd := r } } = _
    rw [← hsound]

/-- The state with another answer to what is due in its step (R121). -/
def State.withDue (d : Due) (s : State) : State := { s with args := { s.args with due := d } }

/-- What timers that are due add to the end of a `Step`: the arguments that say so, and the tick unless it ended halted (R129, R132). -/
def State.tickedBy (d : Due) (s : State) : State := if s.halted then s.withDue d else (s.withDue d).tick

@[simp] theorem State.withDue_halted (d : Due) (s : State) : (s.withDue d).halted = s.halted := rfl

theorem State.tickedBy_of_halted (h : s.halted = true) (d : Due) : s.tickedBy d = s.withDue d := if_pos h

theorem State.tickedBy_of_running (h : s.halted = false) (d : Due) : s.tickedBy d = (s.withDue d).tick :=
  if_neg (ne_true_of_eq_false h)

/-- A `Step` of the Boolean interface is the same `Step` with timers not due, and then the tick unless it ended halted (R129, R130). -/
theorem cycle_withTickDue {execDue : Bool} (hdue : s.args.due = .flags execDue false) (tickDue : Bool) :
    cycle (s.withDue (.flags execDue tickDue)) = mapNext (State.tickedBy (.flags execDue tickDue)) (cycle s) := by
  have hidle {w : State} (hw : w.args = s.args) : w.tick = w :=
    State.tick_of_notDue (by simp only [State.tickDue, hw, hdue])
  have hexec : (s.withDue (.flags execDue tickDue)).execDue = s.execDue := by
    simp only [State.execDue, State.withDue, hdue]
  have hhalted := s.withDue_halted (.flags execDue tickDue)
  cases h : s.halted with
  | true =>
    rw [cycle_of_halted h, cycle_of_halted (hhalted.trans h)]
    exact congrArg Host.Outcome.next (State.tickedBy_of_halted h _).symm
  | false =>
    have h' := hhalted.trans h
    cases he : s.execDue with
    | false =>
      rw [cycle_of_limited h he, cycle_of_limited h' (hexec.trans he), hidle rfl]
      exact congrArg Host.Outcome.next (State.tickedBy_of_running h _).symm
    | true =>
      have he' := hexec.trans he
      cases hf : s.fetch with
      | none => rw [cycle_of_noFetch h he hf, cycle_of_noFetch h' he' hf]; rfl
      | some op =>
        cases hd : decodeWord op with
        | error r => rw [cycle_of_illegal h he hf hd, cycle_of_illegal h' he' hf hd]; rfl
        | ok i =>
          obtain ⟨v, hx, hargs⟩ := exec_answers i s
          have hx' : exec i (s.withDue (.flags execDue tickDue)) = .next (v.withDue (.flags execDue tickDue)) :=
            (exec_withDue i s _).trans (congrArg _ hx)
          rw [cycle_of_decoded h he hf hd, cycle_of_decoded h' he' hf hd, hx, hx']
          have hend : v.finishExecuted = v := by
            rw [State.finishExecuted_of_flags (hargs ▸ hdue), hidle hargs, ite_self]
          have hend' : (v.withDue (.flags execDue tickDue)).finishExecuted = v.tickedBy (.flags execDue tickDue) :=
            State.finishExecuted_of_flags rfl
          rw [mapNext, mapNext, mapNext, hend, hend']

/-- Settles O60: the two ends differ by the tick of `State.tickedBy`. -/
theorem tickIsIndependentOfExecution : Obligations.TickIsIndependentOfExecution := by
  intro s execDue tickDue rnd
  obtain ⟨w, hw, -⟩ := cycle_ends { s with args := ⟨.flags execDue false, rnd⟩ }
  have ht := cycle_withTickDue (s := { s with args := ⟨.flags execDue false, rnd⟩ }) rfl tickDue
  rw [hw] at ht
  refine ⟨_, w, ht, hw, ?_⟩
  cases h : w.halted with
  | true =>
    rw [State.tickedBy_of_halted h]
    have hcond : (tickDue && !(w.withDue (.flags execDue tickDue)).halted) = false := by simp [h]
    exact ⟨rfl, (if_neg (ne_true_of_eq_false hcond)).symm, (if_neg (ne_true_of_eq_false hcond)).symm⟩
  | false =>
    rw [State.tickedBy_of_running h]
    have hcond : (tickDue && !(w.withDue (.flags execDue tickDue)).tick.halted) = tickDue := by simp [h]
    rw [hcond]
    refine ⟨?_, State.toNat_tick_dt _, State.toNat_tick_st _⟩
    rw [State.tick_of_flags (s := w.withDue (.flags execDue tickDue)) rfl]
    rfl

end Sys2Proof.Machine
end

section
/-! SUPPORT. `withFetchWord` puts a word where the next step fetches and a `Step` that may execute in front of the script
(spec/40_step_cycle.md R122; log entry 10). -/

namespace Sys2Proof.Machine

/-- The script `withFetchWord` leaves begins with a `Step` that may execute. -/
theorem State.scriptToExecute_eq_cons (s : State) :
    ∃ tickDue rnd rest, s.scriptToExecute = .step ⟨.flags true tickDue, rnd⟩ :: rest := by
  unfold State.scriptToExecute
  split
  · rename_i h
    unfold State.willExecute at h
    split at h
    case h_1 hs => exact ⟨_, _, _, h ▸ hs⟩
    all_goals cases h
  · exact ⟨_, _, _, rfl⟩

/-- The word stored is the word fetched. -/
theorem State.fetch_withFetchWord {s : State} (hm : Memory.wf s.params.font s.mem) (op : Opcode) :
    (s.withFetchWord 16 op.toNat).fetch = some op := by
  have hword : BitVec.ofNat 16 (op.toNat % 2 ^ 16) = op := by
    rw [Nat.mod_eq_of_lt op.isLt, BitVec.ofNat_toNat, BitVec.setWidth_eq]
  have hpc : (s.withFetchWord 16 op.toNat).pc.toNat + 2 ≤ 4096 := by
    unfold State.withFetchWord
    dsimp only
    split
    · rename_i h; exact inRange_eq_true.mp h
    · decide
  have hstored := State.fetch_stored (t := s.withFetchWord 16 op.toNat) hm rfl rfl (Nat.le_refl 2) hpc
  rw [hstored, hword]
  exact congrArg some (wordOfBytes_bytesOfWord op)

/-- Settles O59: the `Step` in front fetches the word stored, and the rest is R137's cycle. -/
theorem storedWordRunsNext : Obligations.StoredWordRunsNext := by
  intro s op i hm hd
  obtain ⟨tickDue, rnd, rest, hs⟩ := s.scriptToExecute_eq_cons
  have he : (s.withFetchWord 16 op.toNat).nextEvent = some (.step ⟨.flags true tickDue, rnd⟩) :=
    State.nextEvent_of_script hs
  exact ⟨_, (step_of_step he).trans (cycle_of_decoded rfl rfl (State.fetch_withFetchWord hm op) hd)⟩

end Sys2Proof.Machine
end

section
/-! SUPPORT. The control effect of every instruction (spec/40_step_cycle.md R128, R131). -/

namespace Sys2Proof.Machine

/-- An instruction that is not `Fx0A` and does not wait has the control effect its `pc` says (R131). -/
theorem controlEffect_of_notWaiting {i : Instr} {s t : State} {pcMoves : Prop} (hi : ∀ x, i ≠ .ldVxKey x)
    (hw : t.waiting = false) (hpc : pcMoves) :
    (t.waiting = true ↔ (∃ x, i = .ldVxKey x) ∧ ∀ k, s.key k = false) ∧ (t.waiting = true → t.pc = s.pc) ∧
      (t.waiting = false → pcMoves) := by
  rw [hw]
  exact ⟨iff_of_false nofun fun ⟨⟨x, hx⟩, _⟩ => hi x hx, nofun, fun _ => hpc⟩

/-- The newest entry of a stack that is not empty (R38). -/
theorem State.stackEntry_newest {s : State} {a : Addr} {rest : List Addr} (h : s.stack = a :: rest) :
    s.stackEntry (s.sp - 1) = some a := by
  simp [State.stackEntry, State.sp, h]

/-- Settles O26, instruction by instruction: each commits one control effect, and only `Fx0A` can commit WAIT. -/
theorem controlEffectOfEveryInstruction : Obligations.ControlEffectOfEveryInstruction := by
  intro i s t hf hx
  cases i
  case ldVxKey x =>
    cases hk : s.lowestKey with
    | none =>
      cases (exec_ldVxKey_of_none x hk).symm.trans hx
      exact ⟨iff_of_true rfl ⟨⟨x, rfl⟩, s.lowestKey_eq_none.mp hk⟩, fun _ => rfl, nofun⟩
    | some k =>
      cases (exec_ldVxKey_of_some x hk).symm.trans hx
      have hpressed : s.key k = true := (s.lowestKey_eq_some hk).1
      exact ⟨iff_of_false nofun fun ⟨_, hnone⟩ => Bool.noConfusion (hpressed.symm.trans (hnone k)), nofun, fun _ => rfl⟩
  case ret =>
    have hsp : s.stack ≠ [] := by simpa [faultOf, State.sp] using hf
    obtain ⟨a, rest, hs⟩ := List.exists_cons_of_ne_nil hsp
    cases (exec_ret_of_stack hs).symm.trans hx
    exact controlEffect_of_notWaiting nofun rfl (State.stackEntry_newest hs).symm
  case call nnn =>
    have hsp : s.sp < 16 := by simpa [faultOf] using hf
    cases (exec_call_of_lt nnn hsp).symm.trans hx
    exact controlEffect_of_notWaiting nofun rfl rfl
  case seImm x y | sneImm x y | seReg x y | sneReg x y =>
    cases hx
    exact controlEffect_of_notWaiting nofun (skipIf_isWait _) (skipIf_apply _ _)
  case skp x =>
    obtain ⟨k, hk⟩ := index16_of_le (b := s.readV x) (by simpa [faultOf] using hf)
    cases (exec_skp_of_index hk).symm.trans hx
    exact controlEffect_of_notWaiting nofun (skipIf_isWait _) (skipIf_apply _ _)
  case sknp x =>
    obtain ⟨k, hk⟩ := index16_of_le (b := s.readV x) (by simpa [faultOf] using hf)
    cases (exec_sknp_of_index hk).symm.trans hx
    exact controlEffect_of_notWaiting nofun (skipIf_isWait _) (skipIf_apply _ _)
  case ldFont x =>
    obtain ⟨d, hd⟩ := index16_of_le (b := s.readV x) (by simpa [faultOf] using hf)
    cases (exec_ldFont_of_index hd).symm.trans hx
    exact controlEffect_of_notWaiting nofun rfl rfl
  case drw x y n =>
    have hr : s.i.toNat + n.val ≤ 4096 := by simpa [faultOf] using hf
    obtain ⟨hout, -⟩ | ⟨-, rows, -, hdrawn⟩ := execDrw_cases x y n s
    · exact absurd hr (Nat.not_le.mpr hout)
    · cases hdrawn.symm.trans hx
      exact controlEffect_of_notWaiting nofun rfl rfl
  case ldBcd x =>
    cases (exec_ldBcd_of_inRange x (by simpa [faultOf] using hf)).symm.trans hx
    exact controlEffect_of_notWaiting nofun rfl rfl
  case storeRegs x =>
    cases (exec_storeRegs_of_inRange x (by simpa [faultOf] using hf)).symm.trans hx
    exact controlEffect_of_notWaiting nofun rfl rfl
  case loadRegs x =>
    cases (exec_loadRegs_of_inRange x (by simpa [faultOf] using hf)).symm.trans hx
    exact controlEffect_of_notWaiting nofun rfl rfl
  all_goals
    cases hx
    exact controlEffect_of_notWaiting nofun rfl rfl

end Sys2Proof.Machine
end

section
/-! SUPPORT. Control transfer: the faults of the call stack, what a return leaves on it, and the targets of the jumps
(spec/41_flow.md R141 to R144). -/

namespace Sys2Proof.Machine

variable {s : State}

/-- `00EE` on an empty stack (R141). -/
theorem exec_ret_of_empty (h : s.sp = 0) : exec .ret s = takeFault s .ret .stackUnderflow none := by
  simp only [exec, execRet, s.pop_eq_none.mpr h]

/-- `2nnn` on a full stack (R143). -/
theorem exec_call_of_full (nnn : BitVec 12) (h : 16 ≤ s.sp) :
    exec (.call nnn) s = takeFault s (.call nnn) .stackOverflow none := by
  simp only [exec, execCall, s.push_of_full h]

/-- The entries below the newest one stay where they are when it is popped (R38). -/
theorem State.stackEntry_of_popped {a : Addr} {rest : List Addr} (h : s.stack = a :: rest) {j : Nat}
    (hj : j < rest.length) : { s with stack := rest }.stackEntry j = s.stackEntry j := by
  have hpush := stackEntry_push_of_lt { s with stack := rest } a hj
  rw [← h] at hpush
  exact hpush.symm

/-- The target of `Bnnn` is a sum of natural numbers: it fits 16 bits (R144). -/
theorem toNat_zextNnn_add_zextByte (nnn : BitVec 12) (b : Byte) :
    (zextNnn nnn + zextByte b).toNat = nnn.toNat + b.toNat := by
  have hfits : (zextNnn nnn).toNat + (zextByte b).toNat < 2 ^ 16 := by
    rw [toNat_zextNnn, toNat_zextByte]; have := nnn.isLt; have := b.isLt; omega
  rw [BitVec.toNat_add_of_lt hfits, toNat_zextNnn, toNat_zextByte]

/-- Settles O29: a stack that is not empty has a newest entry, which is popped into `pc`; the entries below it are the new
stack. -/
theorem returnPopsTheStack : Obligations.ReturnPopsTheStack := by
  refine ⟨encodes_row .ret, fun s => ⟨fun hsp => ?_, exec_ret_of_empty⟩⟩
  obtain ⟨a, rest, hs⟩ := List.exists_cons_of_length_pos hsp
  have hdepth : rest.length = s.sp - 1 := by simp [State.sp, hs]
  exact ⟨_, exec_ret_of_stack hs, (State.stackEntry_newest hs).symm, hdepth, fun _ => State.stackEntry_of_popped hs, rfl,
    unchanged_stack s rest _⟩

/-- Settles O30: each jump commits its target to `pc` and has no other write. -/
theorem jumpsSetThePc : Obligations.JumpsSetThePc :=
  ⟨encodes_row (.jp 0), encodes_row (.jpV0 0), fun nnn s =>
    ⟨⟨_, rfl, toNat_zextNnn nnn, rfl, unchanged_effect s _⟩,
      ⟨_, rfl, toNat_zextNnn_add_zextByte nnn (s.readV 0), rfl, unchanged_effect s _⟩⟩⟩

/-- Settles O31: with a free entry the call is a push and a jump, and with none it faults. -/
theorem callPushesTheReturnAddress : Obligations.CallPushesTheReturnAddress :=
  ⟨encodes_row (.call 0), fun nnn s _ =>
    ⟨fun hroom => ⟨_, exec_call_of_lt nnn hroom, toNat_zextNnn nnn, rfl, stackEntry_push_self s _,
        fun _ => stackEntry_push_of_lt s _, rfl, unchanged_stack s _ _⟩,
      fun hfull => exec_call_of_full nnn hfull.ge⟩⟩

end Sys2Proof.Machine
end

section
/-! SUPPORT. The conditional skips on registers (spec/42_skip.md R150 to R154). -/

namespace Sys2Proof.Machine

/-- An instruction that skips when `c` holds writes only its control effect (R150). -/
theorem commit_skipIf (s : State) (c : Prop) [Decidable c] :
    commit s (skipIf (decide c)) = .next { s with pc := s.pc + (if c then 4#16 else 2#16), waiting := false } := by
  by_cases hc : c
  · rw [decide_eq_true hc, if_pos hc]; rfl
  · rw [decide_eq_false hc, if_neg hc]; rfl

/-- The complementary skip, taken when `c` fails (R152, R154). -/
theorem commit_skipIf_not (s : State) (c : Prop) [Decidable c] :
    commit s (skipIf (decide (¬c))) = .next { s with pc := s.pc + (if c then 2#16 else 4#16), waiting := false } := by
  rw [commit_skipIf, ite_not]

/-- Settles O32: each of the four is a skip on an equality or on its negation. -/
theorem skipsCompareForEquality : Obligations.SkipsCompareForEquality :=
  ⟨encodes_row (.seImm 0 0), encodes_row (.sneImm 0 0), encodes_row (.seReg 0 0), encodes_row (.sneReg 0 0),
    fun x y kk s =>
      ⟨commit_skipIf s (s.readV x = kk), commit_skipIf_not s (s.readV x = kk),
        commit_skipIf s (s.readV x = s.readV y), commit_skipIf_not s (s.readV x = s.readV y)⟩⟩

end Sys2Proof.Machine
end

section
/-! SUPPORT. `FONT` and the shift source through a `Step` (spec/43_alu.md R173). -/

namespace Sys2Proof.Machine

/-- Every way a `Step` ends keeps the parameters: no instruction, fault entry or tick writes them. -/
theorem CycleEnds.params {s t : State} (hc : CycleEnds s t) : t.params = s.params := by
  cases hc with
  | halted => rfl
  | limited => exact s.tick_params
  | fetchFault => exact s.fetchFault_params
  | decodeFault => exact s.decodeFault_params _
  | execFault => exact s.enterFault_params _ _ _
  | executed _ _ _ _ _ _ _ _ _ hk => rw [State.tick_params, State.markExecuted_params]; exact hk.params

/-- Settles O56, by the ways a transition ends: the host events other than `Step` write other fields by definition. -/
theorem parametersAreFixed : Obligations.ParametersAreFixed := by
  intro s t hstep
  cases step_ends hstep with
  | idle | reset | loadRom | key => rfl
  | step _ _ _ hends => exact hends.params

end Sys2Proof.Machine
end

section
/-! SUPPORT. Register load, arithmetic, logic, shift and random: how an instruction that writes one register, or one register and
then the flag, completes, and its bytes as numbers (spec/43_alu.md R160 to R174). -/

namespace Sys2Proof.Machine

variable {i : Instr} {s : State} {x : Reg} {r f : Byte}

/-- An instruction whose only write is `V[x]`: what follows from the byte written holds of its next state. -/
theorem exec_completes_of_setV {P : State → Prop} (hx : exec i s = commit (s.setV x r) .next)
    (hresult : ∀ t : State, t.readV x = r → P t) :
    ∃ t, exec i s = .next t ∧ P t ∧ t.pc = s.pc + 2#16 ∧ t.waiting = false ∧ Unchanged { regs := [x] } s t :=
  ⟨_, hx, hresult _ (s.readV_setV_self x r), rfl, rfl, unchanged_setV s x r .next⟩

/-- An instruction that writes `V[x]` and then the flag: the byte written is left in `V[x]` unless that is VF (R33, R174). -/
theorem exec_completes_of_setVFlag {P Q : State → Prop} (hx : exec i s = commit (s.setVFlag x r f) .next)
    (hresult : ∀ t : State, t.readV x = r → P t) (hflag : ∀ t : State, t.readV vf = f → Q t) :
    ∃ t, exec i s = .next t ∧ (x ≠ vf → P t) ∧ Q t ∧ t.pc = s.pc + 2#16 ∧ t.waiting = false ∧
      Unchanged { regs := [x, vf] } s t := by
  have hkept (hne : x ≠ vf) : (s.setVFlag x r f).readV x = r := by rw [State.readV_setVFlag, if_neg hne, if_pos rfl]
  exact ⟨_, hx, fun hne => hresult _ (hkept hne), hflag _ (s.readV_setVFlag_vf x r f), rfl, rfl,
    unchanged_setVFlag s x r f .next⟩

/-- The carry as R167 compares it. -/
theorem carryFlag_eq (a b : Byte) : carryFlag a b = if 255 < a.toNat + b.toNat then 1#8 else 0#8 := by
  simp [carryFlag, flagByte]

/-- The not-borrow as R160 compares it. -/
theorem notBorrowFlag_eq (a b : Byte) : notBorrowFlag a b = if b.toNat ≤ a.toNat then 1#8 else 0#8 := by
  simp [notBorrowFlag, flagByte]

/-- A difference of bytes, with 256 added where it borrows (R160). -/
theorem toNat_sub_of_borrow (a b : Byte) :
    (a - b).toNat = if b.toNat ≤ a.toNat then a.toNat - b.toNat else a.toNat + 256 - b.toNat := by
  have := a.isLt
  have := b.isLt
  rw [BitVec.toNat_sub]
  split <;> omega

/-- The operand moved right by one place (R169). -/
theorem toNat_shiftRight_one (a : Byte) : (a >>> 1).toNat = a.toNat / 2 := by
  rw [BitVec.toNat_ushiftRight, Nat.shiftRight_eq_div_pow, pow_one]

/-- The operand moved left by one place (R171). -/
theorem toNat_shiftLeft_one (a : Byte) : (a <<< 1).toNat = 2 * a.toNat % 256 := by
  rw [BitVec.toNat_shiftLeft, Nat.shiftLeft_eq, pow_one, mul_comm]

/-- Bit 0 as a number (R169). -/
theorem toNat_shiftedOutRight (a : Byte) : (shiftedOutRight a).toNat = a.toNat % 2 :=
  (BitVec.toNat_and a 1#8).trans (Nat.and_one_is_mod _)

/-- Bit 7 as a number (R171). -/
theorem toNat_shiftedOutLeft (a : Byte) : (shiftedOutLeft a).toNat = a.toNat / 128 :=
  (BitVec.toNat_ushiftRight a 7).trans (Nat.shiftRight_eq_div_pow _ _)

/-- The operand of a shift by the parameter (R173). -/
theorem State.shiftOperand_eq (s : State) (x y : Reg) :
    s.shiftOperand x y = if s.params.shiftSrc = .vy then s.readV y else s.readV x := by
  unfold State.shiftOperand
  cases s.params.shiftSrc <;> rfl

/-- Settles O33: each writes one register. -/
theorem immediateLoadAndAdd : Obligations.ImmediateLoadAndAdd :=
  ⟨encodes_row (.ldImm 0 0), encodes_row (.addImm 0 0), fun x kk s =>
    ⟨exec_completes_of_setV rfl fun _ ht => ht,
      exec_completes_of_setV rfl fun _ ht => ht ▸ BitVec.toNat_add (s.readV x) kk⟩⟩

/-- Settles O34: each writes one register, with the operation on every bit. -/
theorem copyAndLogic : Obligations.CopyAndLogic :=
  ⟨encodes_row (.ldReg 0 0), encodes_row (.orReg 0 0), encodes_row (.andReg 0 0), encodes_row (.xorReg 0 0), fun _ _ _ =>
    ⟨exec_completes_of_setV rfl fun _ ht => ht,
      exec_completes_of_setV rfl fun _ ht _ => ht ▸ BitVec.getLsbD_or,
      exec_completes_of_setV rfl fun _ ht _ => ht ▸ BitVec.getLsbD_and,
      exec_completes_of_setV rfl fun _ ht _ => ht ▸ BitVec.getLsbD_xor⟩⟩

/-- Settles O35: the sum of two bytes wraps, and the carry is the last write. -/
theorem addSetsCarry : Obligations.AddSetsCarry :=
  ⟨encodes_row (.addReg 0 0), fun x y s =>
    exec_completes_of_setVFlag rfl (fun _ ht => ht ▸ BitVec.toNat_add (s.readV x) (s.readV y))
      fun _ ht => ht ▸ carryFlag_eq (s.readV x) (s.readV y)⟩

/-- Settles O36: one subtraction with its operands in the two orders. -/
theorem subtractionsSetNotBorrow : Obligations.SubtractionsSetNotBorrow :=
  ⟨encodes_row (.subReg 0 0), encodes_row (.subnReg 0 0), fun x y s =>
    ⟨exec_completes_of_setVFlag rfl (fun _ ht => ht ▸ toNat_sub_of_borrow (s.readV x) (s.readV y))
        fun _ ht => ht ▸ notBorrowFlag_eq (s.readV x) (s.readV y),
      exec_completes_of_setVFlag rfl (fun _ ht => ht ▸ toNat_sub_of_borrow (s.readV y) (s.readV x))
        fun _ ht => ht ▸ notBorrowFlag_eq (s.readV y) (s.readV x)⟩⟩

/-- Settles O37: the operand the parameter selects is the one shifted, and its outgoing bit is the last write. -/
theorem shiftsByOnePlace : Obligations.ShiftsByOnePlace := by
  refine ⟨encodes_row (.shr 0 0), encodes_row (.shl 0 0), fun x y s a ha => ?_⟩
  obtain rfl : a = s.shiftOperand x y := ha.trans (s.shiftOperand_eq x y).symm
  exact
    ⟨exec_completes_of_setVFlag rfl (fun _ ht => ht ▸ toNat_shiftRight_one (s.shiftOperand x y))
        fun _ ht => ht ▸ toNat_shiftedOutRight (s.shiftOperand x y),
      exec_completes_of_setVFlag rfl (fun _ ht => ht ▸ toNat_shiftLeft_one (s.shiftOperand x y))
        fun _ ht => ht ▸ toNat_shiftedOutLeft (s.shiftOperand x y)⟩

/-- Settles O38: the one register written is a conjunction with `kk`, whatever the random byte of the step. -/
theorem randomByteIsMasked : Obligations.RandomByteIsMasked :=
  ⟨encodes_row (.rnd 0 0), fun _ _ _ => exec_completes_of_setV rfl fun _ ht _ => ht ▸ BitVec.getLsbD_and⟩

end Sys2Proof.Machine
end

section
/-! SUPPORT. The index register and memory: the faults, the digits and registers an instruction transfers one by one, and what it
leaves of the rest (spec/44_index_memory.md R180 to R187). -/

namespace Sys2Proof.Machine

variable {s : State} {x : Reg}

/-- `Fx29` on a byte that is no digit (R183). -/
theorem exec_ldFont_of_gt (h : 15 < (s.readV x).toNat) :
    exec (.ldFont x) s = takeFault s (.ldFont x) .digitRange (some (zextByte (s.readV x))) := by
  simp only [exec, execLdFont, (index16_eq_none (s.readV x)).mpr h]

/-- `Fx33` past the end of the address space (R184). -/
theorem exec_ldBcd_of_outside (h : 4096 < s.i.toNat + 3) :
    exec (.ldBcd x) s = takeFault s (.ldBcd x) .memRange (some s.i) := by
  simp only [exec, execLdBcd, s.memWrite_of_outside (bytes := bcdDigits (s.readV x)) h]

/-- `Fx55` past the end of the address space (R186). -/
theorem exec_storeRegs_of_outside (h : 4096 < s.i.toNat + x.val + 1) :
    exec (.storeRegs x) s = takeFault s (.storeRegs x) .memRange (some s.i) := by
  have hout : 4096 < s.i.toNat + (s.regsUpTo x).length := by rw [length_regsUpTo]; exact h
  simp only [exec, execStoreRegs, s.memWrite_of_outside hout]

/-- `Fx65` past the end of the address space (R187). -/
theorem exec_loadRegs_of_outside (h : 4096 < s.i.toNat + x.val + 1) :
    exec (.loadRegs x) s = takeFault s (.loadRegs x) .memRange (some s.i) := by
  simp only [exec, execLoadRegs, s.memRead_of_outside (n := x.val + 1) h]

/-- An instruction that completes with one store at `I`: its bytes are read back one by one, and no other byte changes (R65, R180). -/
theorem exec_completes_of_store {i : Instr} {bytes : List Byte} (hm : Memory.wf s.params.font s.mem)
    (hx : exec i s = commit { s with mem := Memory.putAll s.params.font s.mem s.i.toNat bytes } .next) :
    ∃ t, exec i s = .next t ∧ (∀ j < bytes.length, t.readByte (s.i.toNat + j) = bytes.getD j 0#8) ∧
      t.pc = s.pc + 2#16 ∧ t.waiting = false ∧ Unchanged { stored := (s.i.toNat, bytes.length) } s t :=
  ⟨_, hx, fun _ => State.readByte_stored hm (by rfl) (by rfl), rfl, rfl, unchanged_stored hm s.i.toNat bytes .next⟩

/-- Each of the three digits fits its byte, so none is reduced (R184). -/
theorem toNat_bcdDigits (b : Byte) :
    ((bcdDigits b).getD 0 0#8).toNat = b.toNat / 100 ∧ ((bcdDigits b).getD 1 0#8).toNat = b.toNat / 10 % 10 ∧
      ((bcdDigits b).getD 2 0#8).toNat = b.toNat % 10 := by
  have := b.isLt
  exact ⟨Nat.mod_eq_of_lt (by omega), Nat.mod_eq_of_lt (by omega), Nat.mod_eq_of_lt (by omega)⟩

/-- A register at most `V[x]` gets the byte at its own offset (R187). -/
theorem State.readV_setVs_range (s : State) (f : Nat → Byte) {j : Reg} (hj : j ≤ x) :
    (s.setVs ((List.range (x.val + 1)).map f)).readV j = f j.val := by
  have hlen : j.val < ((List.range (x.val + 1)).map f).length := by simpa using Nat.lt_succ_of_le hj
  rw [s.readV_setVs, List.getD_eq_getElem _ _ hlen, List.getElem_map, List.getElem_range]

/-- Settles O41: the store of three bytes, each a digit that fits its byte. -/
theorem bcdStoresThreeDigits : Obligations.BcdStoresThreeDigits := by
  refine ⟨encodes_row (.ldBcd 0), fun x s hm => ⟨fun hr => ?_, exec_ldBcd_of_outside⟩⟩
  obtain ⟨t, hx, hread, hpc, hwaiting, hframe⟩ := exec_completes_of_store hm (exec_ldBcd_of_inRange x hr)
  rw [length_bcdDigits] at hread hframe
  obtain ⟨hhundreds, htens, hones⟩ := toNat_bcdDigits (s.readV x)
  exact ⟨t, hx, (congrArg BitVec.toNat (hread 0 (by decide))).trans hhundreds,
    (congrArg BitVec.toNat (hread 1 (by decide))).trans htens, (congrArg BitVec.toNat (hread 2 (by decide))).trans hones,
    hpc, hwaiting, hframe⟩

/-- Settles O42: the store of `x + 1` bytes, the byte at offset `j` being `V[j]`. -/
theorem storeRegistersThroughVx : Obligations.StoreRegistersThroughVx := by
  refine ⟨encodes_row (.storeRegs 0), fun x s hm => ⟨fun hr => ?_, exec_storeRegs_of_outside⟩⟩
  obtain ⟨t, hx, hread, hpc, hwaiting, hframe⟩ := exec_completes_of_store hm (exec_storeRegs_of_inRange x hr)
  rw [length_regsUpTo] at hread hframe
  exact ⟨t, hx, fun j hj => (hread j.val (Nat.lt_succ_of_le hj)).trans (getD_regsUpTo s x hj 0#8), hpc, hwaiting, hframe⟩

/-- Settles O43: the `x + 1` bytes read are written to the first registers, and the others keep theirs. -/
theorem loadRegistersThroughVx : Obligations.LoadRegistersThroughVx :=
  ⟨encodes_row (.loadRegs 0), fun x s =>
    ⟨fun hr => ⟨_, exec_loadRegs_of_inRange x hr, fun _ => s.readV_setVs_range _, rfl, rfl,
        unchanged_setVs s x _ (by simp) .next⟩,
      exec_loadRegs_of_outside⟩⟩

/-- Settles O39: each writes `I` alone, the sum wrapping at 16 bits. -/
theorem indexLoadAndAdd : Obligations.IndexLoadAndAdd := by
  refine ⟨encodes_row (.ldI 0), encodes_row (.addI 0),
    fun nnn s => ⟨_, rfl, toNat_zextNnn nnn, rfl, rfl, unchanged_i s _ .next⟩,
    fun x s => ⟨_, rfl, ?_, rfl, rfl, unchanged_i s _ .next⟩⟩
  calc (s.i + zextByte (s.readV x)).toNat
      = (s.i.toNat + (zextByte (s.readV x)).toNat) % 65536 := BitVec.toNat_add _ _
    _ = (s.i.toNat + (s.readV x).toNat) % 65536 := by rw [toNat_zextByte]

/-- Settles O40: a byte of at most 15 is a digit, and `I` becomes the address of its glyph. -/
theorem glyphAddressOfDigit : Obligations.GlyphAddressOfDigit := by
  refine ⟨encodes_row (.ldFont 0), fun x s => ⟨fun hdigit => ?_, exec_ldFont_of_gt⟩⟩
  obtain ⟨d, hd⟩ := index16_of_le hdigit
  have hval : (s.readV x).toNat = d.val := (index16_eq_some _ d).mp hd
  exact ⟨_, exec_ldFont_of_index hd, hval ▸ toNat_glyphAddr d, rfl, rfl, unchanged_i s _ .next⟩

end Sys2Proof.Machine
end

section
/-! SUPPORT. The display instructions: the display and the flag a sprite leaves, drawn once and drawn again at the same origin
(spec/45_display.md R191 to R196). -/

namespace Sys2Proof.Machine

variable {s : State} {x y : Reg} {n : Fin 16} {rows : List Byte}

/-- A drawn sprite inverts each pixel of the grid it covers and no other (R194, R195). -/
theorem pixel_writeSprite (rows : List Byte) (x0 y0 : Nat) (d : Display) {c r : Nat} (hc : c < 64) (hr : r < 32) :
    (writeSprite rows x0 y0 d).1.pixel c r = (d.pixel c r ^^ spriteCovers rows x0 y0 c r) := by
  rw [writeSprite, pixel_drawRows, decide_eq_true ⟨hc, hr⟩, Bool.true_and]

/-- A drawn sprite collides exactly on a pixel of the grid that it covers and that was on (R195). -/
theorem collision_writeSprite (rows : List Byte) (x0 y0 : Nat) (d : Display) :
    (writeSprite rows x0 y0 d).2 = true ↔
      ∃ c r, c < 64 ∧ r < 32 ∧ d.pixel c r = true ∧ spriteCovers rows x0 y0 c r = true :=
  (collision_drawRows rows x0 y0 (d, false)).trans (or_iff_right Bool.false_ne_true)

/-- Each covered pixel is inverted twice (R196). -/
theorem writeSprite_writeSprite (rows : List Byte) (x0 y0 : Nat) (d : Display) :
    (writeSprite rows x0 y0 (writeSprite rows x0 y0 d).1).1 = d :=
  Display.ext_pixel fun c r hc hr => by
    rw [pixel_writeSprite _ _ _ _ hc hr, pixel_writeSprite _ _ _ _ hc hr, Bool.xor_assoc, Bool.xor_self, Bool.xor_false]

/-- On a clear display no bit finds a pixel that is on (R196). -/
theorem collision_writeSprite_of_clear (rows : List Byte) (x0 y0 : Nat) {d : Display}
    (hd : ∀ c r, d.pixel c r = false) : (writeSprite rows x0 y0 d).2 = false := by
  rw [Bool.eq_false_iff, Ne, collision_writeSprite]
  rintro ⟨c, r, -, -, hon, -⟩
  cases (hd c r).symm.trans hon

/-- After one draw on a clear display the pixels on are those covered, so the second draw collides on each of them (R196). -/
theorem collision_writeSprite_twice_of_clear (rows : List Byte) (x0 y0 : Nat) {d : Display}
    (hd : ∀ c r, d.pixel c r = false) :
    (writeSprite rows x0 y0 (writeSprite rows x0 y0 d).1).2 = true ↔
      ∃ c r, c < 64 ∧ r < 32 ∧ spriteCovers rows x0 y0 c r = true := by
  rw [collision_writeSprite]
  refine exists_congr fun c => exists_congr fun r => and_congr_right fun hc => and_congr_right fun hr => ?_
  rw [pixel_writeSprite _ _ _ _ hc hr, hd, Bool.false_xor, and_self]

/-- VF tells a collision (R192). -/
@[simp] theorem collisionFlag_eq_one_iff (c : Bool) : collisionFlag c = 1#8 ↔ c = true := by
  cases c <;> decide

/-- `Dxyn` past the end of the address space (R192). -/
theorem exec_drw_of_outside (h : 4096 < s.i.toNat + n.val) :
    exec (.drw x y n) s = takeFault s (.drw x y n) .memRange (some s.i) := by
  obtain ⟨-, hx⟩ | ⟨hr, -⟩ := execDrw_cases x y n s
  · exact hx
  · exact absurd hr (Nat.not_le.mpr h)

/-- `Dxyn` inside the address space completes with one `writeSprite` and the collision in VF (R192). -/
theorem exec_drw_completes (x y : Reg) (h : s.i.toNat + n.val ≤ 4096)
    (hrows : rows = (List.range n.val).map fun j => s.readByte (s.i.toNat + j)) :
    ∃ t, exec (.drw x y n) s = .next t ∧
      t.display = (writeSprite rows (s.readV x).toNat (s.readV y).toNat s.display).1 ∧
      t.readV vf = collisionFlag (writeSprite rows (s.readV x).toNat (s.readV y).toNat s.display).2 ∧
      t.pc = s.pc + 2#16 ∧ t.waiting = false ∧ Unchanged { regs := [vf], display := true } s t := by
  obtain ⟨hout, -⟩ | ⟨-, read, hread, hx⟩ := execDrw_cases x y n s
  · exact absurd h (Nat.not_le.mpr hout)
  · obtain rfl : rows = read := hrows.trans hread.symm
    exact ⟨_, hx, rfl, State.readV_setV_self _ vf _, rfl, rfl, unchanged_display_setV s _ vf _ .next⟩

/-- The frame of `Dxyn` keeps `I` and the bytes there: a second draw reads the same sprite (R196). -/
theorem spriteRows_of_unchanged {t : State} (hu : Unchanged { regs := [vf], display := true } s t) :
    (List.range n.val).map (fun j => t.readByte (t.i.toNat + j)) =
      (List.range n.val).map fun j => s.readByte (s.i.toNat + j) := by
  rw [hu.i rfl]
  exact List.map_congr_left fun j _ => hu.bytes _ fun ⟨_, hlt⟩ => absurd hlt (Nat.not_lt_zero _)

/-- Settles O45: the one write is the blank display. -/
theorem clearDisplay : Obligations.ClearDisplay :=
  ⟨encodes_row .cls, fun s => ⟨_, rfl, Display.pixel_blank, rfl, rfl, unchanged_display s _ .next⟩⟩

/-- Settles O46: the sprite of the `n` bytes at `I` is drawn by one `writeSprite`, whose pixels and collision are R195's. -/
theorem drawSpriteInvertsCoveredPixels : Obligations.DrawSpriteInvertsCoveredPixels := by
  refine ⟨encodes_row (.drw 0 0 0), fun x y n s => ⟨fun h => ?_, exec_drw_of_outside⟩⟩
  obtain ⟨t, hx, hdisplay, hflag, hpc, hwaiting, hframe⟩ := exec_drw_completes x y h rfl
  refine ⟨t, _, hx, rfl, fun c r hc hr => ?_, ?_, ?_, hpc, hwaiting, hframe⟩
  · rw [hdisplay, pixel_writeSprite _ _ _ _ hc hr]
  · rw [hflag]
    exact flagByte_eq _
  · rw [hflag, collisionFlag_eq_one_iff, collision_writeSprite]

/-- Settles O47: the second draw reads the same rows, and with the same origin it is the same `writeSprite` again. -/
theorem drawingTwiceRestoresDisplay : Obligations.DrawingTwiceRestoresDisplay := by
  intro x y n s rows h hrows
  obtain ⟨t, hx, hdisplay, hflag, -, -, hframe⟩ := exec_drw_completes x y h hrows
  refine ⟨t, hx, fun hvx hvy => ?_⟩
  have hagain : t.i.toNat + n.val ≤ 4096 := by rw [hframe.i rfl]; exact h
  obtain ⟨u, hu, hdisplay', hflag', -⟩ :=
    exec_drw_completes x y hagain (hrows.trans (spriteRows_of_unchanged hframe).symm)
  rw [hvx, hvy, hdisplay] at hdisplay' hflag'
  refine ⟨u, hu, hdisplay'.trans (writeSprite_writeSprite rows _ _ _), fun hclear => ⟨?_, ?_, ?_⟩⟩
  · rw [hflag, collision_writeSprite_of_clear rows _ _ hclear]
    rfl
  · rw [hflag']
    exact flagByte_eq _
  · rw [hflag', collisionFlag_eq_one_iff, collision_writeSprite_twice_of_clear rows _ _ hclear]

end Sys2Proof.Machine
end

section
/-! SUPPORT. The keypad and the timers: the skips on a key level and their fault, the key a wait takes, and the transfers between
`Vx` and a timer (spec/46_keypad_timer.md R200 to R206). -/

namespace Sys2Proof.Machine

variable {s : State} {x : Reg} {k : KeyId}

/-- `Ex9E` on a byte that is no key id (R201). -/
theorem exec_skp_of_gt (h : 15 < (s.readV x).toNat) :
    exec (.skp x) s = takeFault s (.skp x) .keyRange (some (zextByte (s.readV x))) := by
  simp only [exec, execSkp, (index16_eq_none (s.readV x)).mpr h]

/-- `ExA1` on a byte that is no key id (R202). -/
theorem exec_sknp_of_gt (h : 15 < (s.readV x).toNat) :
    exec (.sknp x) s = takeFault s (.sknp x) .keyRange (some (zextByte (s.readV x))) := by
  simp only [exec, execSknp, (index16_eq_none (s.readV x)).mpr h]

/-- `Ex9E` on a key id: the skip is taken while that key is pressed (R201). -/
theorem exec_skp_of_key (h : (s.readV x).toNat = k.val) :
    exec (.skp x) s = .next { s with pc := s.pc + (if s.key k then 4#16 else 2#16), waiting := false } := by
  rw [exec_skp_of_index ((index16_eq_some _ k).mpr h), ← commit_skipIf, Bool.decide_eq_true]

/-- `ExA1` on a key id: the skip is taken while that key is not pressed (R202). -/
theorem exec_sknp_of_key (h : (s.readV x).toNat = k.val) :
    exec (.sknp x) s = .next { s with pc := s.pc + (if s.key k then 2#16 else 4#16), waiting := false } := by
  rw [exec_sknp_of_index ((index16_eq_some _ k).mpr h), ← commit_skipIf_not, decide_not, Bool.decide_eq_true]

/-- A pressed key below which none is pressed is `LowestKey()` (R45). -/
theorem State.lowestKey_of_pressed (hk : s.key k = true) (hlow : ∀ j < k, s.key j = false) : s.lowestKey = some k := by
  cases hs : s.lowestKey with
  | none => cases hk.symm.trans (s.lowestKey_eq_none.mp hs k)
  | some j =>
    obtain ⟨hj, hbelow⟩ := s.lowestKey_eq_some hs
    obtain hlt | rfl | hgt := lt_trichotomy j k
    · cases hj.symm.trans (hlow j hlt)
    · rfl
    · cases hk.symm.trans (hbelow k hgt)

/-- Settles O49: a key id decides the skip by the level of its key, and a byte that is none faults. -/
theorem skipsOnKeyLevel : Obligations.SkipsOnKeyLevel :=
  ⟨encodes_row (.skp 0), encodes_row (.sknp 0), fun _ _ =>
    ⟨fun _ hk => ⟨exec_skp_of_key hk, exec_sknp_of_key hk⟩, fun hgt => ⟨exec_skp_of_gt hgt, exec_sknp_of_gt hgt⟩⟩⟩

/-- Settles O50: `LowestKey()` is undefined with no key pressed, and otherwise is the pressed key with none below it. -/
theorem keyWaitTakesLowestKey : Obligations.KeyWaitTakesLowestKey :=
  ⟨encodes_row (.ldVxKey 0), fun x s =>
    ⟨fun hnone => exec_ldVxKey_of_none x (s.lowestKey_eq_none.mpr hnone),
      fun k hk hlow => exec_completes_of_setV (exec_ldVxKey_of_some x (State.lowestKey_of_pressed hk hlow))
        fun _ ht => ht ▸ toNat_keyByte k⟩⟩

/-- Settles O51: each writes its one destination. -/
theorem timerTransfers : Obligations.TimerTransfers :=
  ⟨encodes_row (.ldVxDt 0), encodes_row (.ldDtVx 0), encodes_row (.ldStVx 0), fun _ s =>
    ⟨exec_completes_of_setV rfl fun _ ht => ht,
      ⟨_, rfl, rfl, rfl, rfl, unchanged_dt s _ .next⟩,
      ⟨_, rfl, rfl, rfl, rfl, unchanged_st s _ .next⟩⟩⟩

end Sys2Proof.Machine
end

section
/-! SUPPORT. The tick when it is due, once and many times in a row (spec/60_exceptions.md R235, R236, R262). -/

namespace Sys2Proof.Machine

variable {s : State}

/-- A tick that is due writes the two timers and their reference time (R236, R238). -/
theorem State.tick_of_due (h : s.tickDue = true) :
    s.tick = { s with dt := decrement s.dt, st := decrement s.st, tTickRef := s.args.timeOr s.tTickRef } := if_pos h

/-- Settles O16: the timers are decremented when the tick is due, and it does nothing when it is not. -/
theorem tickCountsBothTimersDown : Obligations.TickCountsBothTimersDown := by
  refine fun s => ⟨fun h => ?_, State.tick_of_notDue⟩
  rw [State.tick_of_due h]
  exact ⟨(toNat_decrement s.dt).trans (Nat.max_zero _).symm, (toNat_decrement s.st).trans (Nat.max_zero _).symm, rfl⟩

/-- Settles O17, by induction on the number of ticks: a tick leaves the arguments of the step, so the next one is due too. -/
theorem timersReachZero : Obligations.TimersReachZero := by
  intro n
  induction n with
  | zero => exact fun s _ _ => ⟨rfl, rfl⟩
  | succ n ih =>
    intro s execDue h
    have hdue : s.tickDue = true := by simp only [State.tickDue, h]
    obtain ⟨hdt, hst⟩ := ih s.tick execDue (s.tick_args.symm ▸ h)
    rw [State.toNat_tick_dt, if_pos hdue] at hdt
    rw [State.toNat_tick_st, if_pos hdue] at hst
    rw [Function.iterate_succ_apply, hdt, hst]
    omega

end Sys2Proof.Machine
end

section
/-! SUPPORT. The timed refinement: a `Step` by the clock beside the `Step` of the Boolean interface that is due alike
(spec/60_exceptions.md R238). -/

namespace Sys2Proof.Machine

variable {s t : State}

/-- The state with other arguments of its step and other reference times: all that R238 adds to the Boolean interface. -/
def State.withClock (a : StepArgs) (execRef tickRef : Time) (s : State) : State :=
  { s with args := a, tExecRef := execRef, tTickRef := tickRef }

/-- The tick of the Boolean interface does what a tick that is due alike does, and leaves the reference times (R236, R238). -/
theorem State.tick_withClock_flags {tickDue : Bool} (h : s.tickDue = tickDue) (execDue : Bool) (rnd : Byte)
    (execRef tickRef : Time) :
    (s.withClock ⟨.flags execDue tickDue, rnd⟩ execRef tickRef).tick =
      s.tick.withClock ⟨.flags execDue tickDue, rnd⟩ execRef tickRef := by
  cases tickDue with
  | false => rw [State.tick_of_notDue h]; rfl
  | true => rw [State.tick_of_due h]; rfl

/-- Whether the timers are due is the same once the instruction is executed (R129, R238). -/
theorem Kept.tickDue_markExecuted {w : State} (hk : Kept s w) (e : Effect) :
    ({ w with pc := e.apply w.pc, waiting := e.isWait } : State).markExecuted.tickDue = s.tickDue := by
  simp only [State.tickDue, State.markExecuted, hk.args, hk.tTickRef]

/-- What is due in the `Step` in progress, as the Boolean interface says it (R121, R238). -/
def State.flagsDue (s : State) : Due := .flags s.execDue s.tickDue

/-- However a `Step` ends, the `Step` of the Boolean interface that is due alike ends so too, with the reference times it began
with (R238). -/
theorem CycleEnds.cycle_flagsDue (hc : CycleEnds s t) :
    cycle (s.withDue s.flagsDue) = .next (t.withClock ⟨s.flagsDue, s.args.rnd⟩ s.tExecRef s.tTickRef) := by
  cases hc with
  | halted h => exact cycle_of_halted h
  | limited h he =>
    rw [cycle_of_limited (s := s.withDue s.flagsDue) h he]
    exact congrArg _ (State.tick_withClock_flags rfl _ _ _ _)
  | fetchFault h he hf => exact cycle_of_noFetch h he hf
  | decodeFault h he op r hf hd => exact cycle_of_illegal h he hf hd
  | execFault h he op i hf hd c info hx =>
    rw [cycle_of_decoded (s := s.withDue s.flagsDue) h he hf hd, State.withDue, exec_withDue, hx]
    rfl
  | executed h he op i hf hd w e hx hk =>
    have hx' : exec i (s.withDue s.flagsDue) = commit (w.withDue s.flagsDue) e :=
      (exec_withDue i s _).trans (congrArg _ hx)
    rw [cycle_of_commit (s := s.withDue s.flagsDue) h he hf hd hx' (hk.halted.trans h), ← hk.args, ← hk.tExecRef,
      ← hk.tTickRef]
    exact congrArg _ (State.tick_withClock_flags (hk.tickDue_markExecuted e) _ _ _ _)

/-- A `Step` by the clock sets the reference of the rate limiter when it executed an instruction, and that of the timers when it
decremented them; one that ends halted sets neither (R132, R238). -/
theorem CycleEnds.references {now : Time} (hc : CycleEnds s t) (hclock : s.args.due = .clock now) :
    t.tExecRef = (if t.halted = false ∧ s.execDue = true then now else s.tExecRef) ∧
      t.tTickRef = (if t.halted = false ∧ s.tickDue = true then now else s.tTickRef) := by
  have htime (r : Time) : s.args.timeOr r = now := by simp only [StepArgs.timeOr, hclock]
  cases hc with
  | halted h => simp [h]
  | limited h he => simp [h, he, htime]
  | fetchFault | decodeFault | execFault => simp
  | executed h he op i hf hd w e hx hk =>
    have hlive : w.halted = false := hk.halted.trans h
    rw [State.tick_tExecRef, State.tick_tTickRef, State.tick_halted, hk.tickDue_markExecuted e]
    simp [hlive, he, hk.args, hk.tTickRef, htime]

/-- Settles O19: the Boolean `Step` in question is due exactly when the clock says so. -/
theorem timedStepRefinesBooleanStep : Obligations.TimedStepRefinesBooleanStep := by
  refine ⟨fun s now => ⟨_, rfl, rfl, rfl⟩, fun s now rnd => ?_⟩
  obtain ⟨t, ht, hends⟩ := cycle_ends { s with args := ⟨.clock now, rnd⟩ }
  obtain ⟨hexec, htick⟩ := hends.references rfl
  refine ⟨t, _, ht, hends.cycle_flagsDue, rfl, ?_, ?_⟩
  · simpa [State.execDue] using hexec
  · simpa [State.tickDue] using htick

end Sys2Proof.Machine
end

section
/-! SUPPORT. The faults: the illegal word, what fault entry writes, and the table of R221 instruction by instruction
(spec/60_exceptions.md R220 to R225). -/

namespace Sys2Proof.Machine

variable {i : Instr} {s : State}

/-- Settles O22: the step of an illegal word is the fault entry of R222. -/
theorem illegalWordFaults : Obligations.IllegalWordFaults := fun _ _ _ _ he hlive hdue hfetch hd =>
  ⟨_, (step_of_step he).trans (cycle_of_illegal hlive hdue hfetch hd), rfl, rfl, rfl, rfl, rfl⟩

/-- Settles O25: fault entry is one update of `halted` and of the record, whose address is the one given, if one is. -/
theorem faultEntryWritesRecordOnly : Obligations.FaultEntryWritesRecordOnly := by
  refine fun s c op info => ⟨rfl, rfl, rfl, rfl, fun a hinfo => ?_, fun hinfo => ?_, rfl⟩
  · rw [State.enterFault_faultRecord, hinfo, Option.getD_some]
  · rw [State.enterFault_faultRecord, hinfo, Option.getD_none]

/-- What an instruction does when R221's table gives it the row `fault` in a state: the fault and its `fault_addr`, or none. -/
structure FollowsFaultRow (i : Instr) (s : State) (fault : Option (Fault × Option Addr)) : Prop where
  takes : ∀ c info, fault = some (c, info) → exec i s = takeFault s i c info
  completes : fault = none → ∃ t, exec i s = .next t ∧ t.halted = s.halted ∧ t.faultRecord = s.faultRecord

/-- An instruction with no row in the table (R225). -/
theorem followsFaultRow_none (h : ∃ t, exec i s = .next t ∧ t.halted = s.halted ∧ t.faultRecord = s.faultRecord) :
    FollowsFaultRow i s none :=
  ⟨nofun, fun _ => h⟩

/-- An instruction whose row has the condition `p` (R221). -/
theorem followsFaultRow_ite {p : Prop} [Decidable p] {c : Fault} {info : Option Addr}
    (hfault : p → exec i s = takeFault s i c info)
    (hdone : ¬p → ∃ t, exec i s = .next t ∧ t.halted = s.halted ∧ t.faultRecord = s.faultRecord) :
    FollowsFaultRow i s (if p then some (c, info) else none) := by
  by_cases hp : p
  · rw [if_pos hp]
    exact ⟨fun _ _ h => by cases h; exact hfault hp, nofun⟩
  · rw [if_neg hp]
    exact followsFaultRow_none (hdone hp)

/-- Every instruction follows its row of R221's table. -/
theorem followsFaultRow_faultOf (i : Instr) (s : State) : FollowsFaultRow i s (faultOf i s) := by
  cases i
  case ret =>
    refine followsFaultRow_ite exec_ret_of_empty fun h => ?_
    obtain ⟨a, rest, hs⟩ := List.exists_cons_of_length_pos (Nat.pos_of_ne_zero h)
    exact ⟨_, exec_ret_of_stack hs, rfl, rfl⟩
  case call nnn =>
    exact followsFaultRow_ite (exec_call_of_full nnn) fun h => ⟨_, exec_call_of_lt nnn (Nat.lt_of_not_le h), rfl, rfl⟩
  case drw x y n =>
    refine followsFaultRow_ite exec_drw_of_outside fun h => ?_
    obtain ⟨t, hx, -, -, -, -, hframe⟩ := exec_drw_completes x y (Nat.le_of_not_lt h) rfl
    exact ⟨t, hx, hframe.halted, hframe.faultRecord⟩
  case ldBcd x =>
    exact followsFaultRow_ite exec_ldBcd_of_outside fun h => ⟨_, exec_ldBcd_of_inRange x (Nat.le_of_not_lt h), rfl, rfl⟩
  case storeRegs x =>
    exact followsFaultRow_ite exec_storeRegs_of_outside fun h =>
      ⟨_, exec_storeRegs_of_inRange x (Nat.le_of_not_lt h), rfl, rfl⟩
  case loadRegs x =>
    exact followsFaultRow_ite exec_loadRegs_of_outside fun h =>
      ⟨_, exec_loadRegs_of_inRange x (Nat.le_of_not_lt h), rfl, rfl⟩
  case skp x =>
    refine followsFaultRow_ite exec_skp_of_gt fun h => ?_
    obtain ⟨k, hk⟩ := index16_of_le (Nat.le_of_not_lt h)
    exact ⟨_, exec_skp_of_index hk, rfl, rfl⟩
  case sknp x =>
    refine followsFaultRow_ite exec_sknp_of_gt fun h => ?_
    obtain ⟨k, hk⟩ := index16_of_le (Nat.le_of_not_lt h)
    exact ⟨_, exec_sknp_of_index hk, rfl, rfl⟩
  case ldFont x =>
    refine followsFaultRow_ite exec_ldFont_of_gt fun h => ?_
    obtain ⟨d, hd⟩ := index16_of_le (Nat.le_of_not_lt h)
    exact ⟨_, exec_ldFont_of_index hd, rfl, rfl⟩
  case ldVxKey x =>
    cases hk : s.lowestKey with
    | none => exact followsFaultRow_none ⟨_, exec_ldVxKey_of_none x hk, rfl, rfl⟩
    | some k => exact followsFaultRow_none ⟨_, exec_ldVxKey_of_some x hk, rfl, rfl⟩
  all_goals exact followsFaultRow_none ⟨_, rfl, rfl, rfl⟩

/-- Settles O24: the codes as the table numbers them, and its conditions by `followsFaultRow_faultOf`. -/
theorem instructionsFaultExactlyWhen : Obligations.InstructionsFaultExactlyWhen :=
  ⟨⟨rfl, rfl, rfl, rfl, rfl, rfl⟩, fun i s => ⟨(followsFaultRow_faultOf i s).takes, (followsFaultRow_faultOf i s).completes⟩⟩

end Sys2Proof.Machine
end

section
/-! SUPPORT. The display output (spec/60_exceptions.md R240). -/

namespace Sys2Proof.Machine

/-- A bit of the display output is the pixel of its remainder and quotient by the width (R240). -/
theorem State.output_display_getElem (s : State) (b : Nat) (hb : b < 2048) :
    s.output.display[b] = s.display.pixel (b % 64) (b / 64) :=
  Vector.getElem_ofFn hb

/-- Settles O48: `64*r + c` has the remainder `c` and the quotient `r` by 64. -/
theorem displayOutputIsRowMajor : Obligations.DisplayOutputIsRowMajor := by
  intro s c r
  have hcol : (64 * r.val + c.val) % 64 = c.val := by omega
  have hrow : (64 * r.val + c.val) / 64 = r.val := by omega
  rw [State.output_display_getElem, hcol, hrow]

end Sys2Proof.Machine
end
